-- ==== Sys2Proof/Word.lean ====
section
/-! DEFINITION. The word and the byte of the machine (00_scope.md R9, R10). -/

namespace Sys2Proof

/-- A 16-bit word: a register, a storage cell, an address (R9: XLEN = ALEN = 16). -/
abbrev Word := BitVec 16

/-- A console byte: a key code or an output character (R8). -/
abbrev Byte := BitVec 8

end Sys2Proof
end

