-- ==== Sys2Proof/Syntax.lean ====
section
/-! DEFINITION. The decoded instructions (30_encoding.md R64), one constructor per row of the opcode table. -/

namespace Sys2Proof

/-- The eight general registers R0 to R7 (10_state.md R15). -/
inductive Reg where
  | r0 | r1 | r2 | r3 | r4 | r5 | r6 | r7
  deriving DecidableEq, Repr

/-- A decoded instruction. Immediates and offsets are the 16-bit operands the decoder of R64
assembles (already sign-extended); `Instr.wf` says which of them an encoding can give. Ignored bits
(R63) are no part of an instruction. -/
inductive Instr where
  /-- BR (R76): requested conditions n, z, p and the extended PCoffset9. -/
  | br (n z p : Bool) (off : Word)
  /-- ADD, register form (R70). -/
  | addR (dr sr1 sr2 : Reg)
  /-- ADD, immediate form (R70). -/
  | addI (dr sr1 : Reg) (imm : Word)
  /-- LD (R82). -/
  | ld (dr : Reg) (off : Word)
  /-- ST (R86). -/
  | st (sr : Reg) (off : Word)
  /-- JSR (R78). -/
  | jsr (off : Word)
  /-- JSRR (R79). -/
  | jsrr (base : Reg)
  /-- AND, register form (R71). -/
  | andR (dr sr1 sr2 : Reg)
  /-- AND, immediate form (R71). -/
  | andI (dr sr1 : Reg) (imm : Word)
  /-- LDR (R84). -/
  | ldr (dr base : Reg) (off : Word)
  /-- STR (R88). -/
  | str (sr base : Reg) (off : Word)
  /-- RTI (R99). -/
  | rti
  /-- NOT (R72). -/
  | notR (dr sr : Reg)
  /-- LDI (R83). -/
  | ldi (dr : Reg) (off : Word)
  /-- STI (R87). -/
  | sti (sr : Reg) (off : Word)
  /-- JMP, and RET when the base is R7 (R77). -/
  | jmp (base : Reg)
  /-- RES (R99). -/
  | res
  /-- LEA (R85). -/
  | lea (dr : Reg) (off : Word)
  /-- TRAP (R89). -/
  | trap (vect : BitVec 8)
  deriving DecidableEq, Repr

/-- The 16 opcodes (R49). -/
inductive Opcode where
  | br | add | ld | st | jsr | and | ldr | str | rti | not | ldi | sti | jmp | res | lea | trap
  deriving DecidableEq, Repr

/-- The opcode an instruction is written with (R49); ADD and AND have two forms each, and JSR and
JSRR share one opcode. -/
def Instr.opcode : Instr → Opcode
  | .br _ _ _ _ => .br
  | .addR _ _ _ => .add
  | .addI _ _ _ => .add
  | .ld _ _ => .ld
  | .st _ _ => .st
  | .jsr _ => .jsr
  | .jsrr _ => .jsr
  | .andR _ _ _ => .and
  | .andI _ _ _ => .and
  | .ldr _ _ _ => .ldr
  | .str _ _ _ => .str
  | .rti => .rti
  | .notR _ _ => .not
  | .ldi _ _ => .ldi
  | .sti _ _ => .sti
  | .jmp _ => .jmp
  | .res => .res
  | .lea _ _ => .lea
  | .trap _ => .trap

end Sys2Proof
end

