-- ==== Sys2Proof/WellFormed.lean ====
section
/-! DEFINITION. Which instructions an encoding can give: the operand ranges of 30_encoding.md R62. -/

namespace Sys2Proof

/-- `v`, read as a signed number, fits an n-bit signed field: -2^(n-1) ≤ v < 2^(n-1) (R62). -/
def fitsSigned (n : Nat) (v : Word) : Bool :=
  decide (-(2 ^ (n - 1) : Int) ≤ v.toInt) && decide (v.toInt < (2 ^ (n - 1) : Int))

/-- An instruction's immediate or offset is in the range its field has (R62); registers, condition
bits and the trap vector are in range by their types. -/
def Instr.wf : Instr → Bool
  | .br _ _ _ off => fitsSigned 9 off
  | .addR _ _ _ => true
  | .addI _ _ imm => fitsSigned 5 imm
  | .ld _ off => fitsSigned 9 off
  | .st _ off => fitsSigned 9 off
  | .jsr off => fitsSigned 11 off
  | .jsrr _ => true
  | .andR _ _ _ => true
  | .andI _ _ imm => fitsSigned 5 imm
  | .ldr _ _ off => fitsSigned 6 off
  | .str _ _ off => fitsSigned 6 off
  | .rti => true
  | .notR _ _ => true
  | .ldi _ off => fitsSigned 9 off
  | .sti _ off => fitsSigned 9 off
  | .jmp _ => true
  | .res => true
  | .lea _ off => fitsSigned 9 off
  | .trap _ => true

end Sys2Proof
end

