-- ==== Sys2Proof/Decode.lean ====
section
/-! DEFINITION. The decoder (30_encoding.md R64), total on every word, and the encoder of the formats
R51 to R61. The opcode numbers and field positions are the spec's decision D1, D2. -/

namespace Sys2Proof

/-- sext_N (R11): the N-bit field v with its sign bit copied into all higher bits of a word. -/
def sext {n : Nat} (v : BitVec n) : Word :=
  if v.getLsbD (n - 1) then (0xFFFF#16 <<< n) ||| v.setWidth 16 else v.setWidth 16

/-- The register a 3-bit field names (R15). -/
def Reg.ofBits (b : BitVec 3) : Reg :=
  match b.getLsbD 2, b.getLsbD 1, b.getLsbD 0 with
  | false, false, false => .r0
  | false, false, true  => .r1
  | false, true,  false => .r2
  | false, true,  true  => .r3
  | true,  false, false => .r4
  | true,  false, true  => .r5
  | true,  true,  false => .r6
  | true,  true,  true  => .r7

/-- The 3-bit field that names a register (R15). -/
def Reg.toBits : Reg → BitVec 3
  | .r0 => 0 | .r1 => 1 | .r2 => 2 | .r3 => 3 | .r4 => 4 | .r5 => 5 | .r6 => 6 | .r7 => 7

/-- The opcode a 4-bit number stands for; all 16 values are assigned (R49). -/
def Opcode.ofBits (b : BitVec 4) : Opcode :=
  match b.getLsbD 3, b.getLsbD 2, b.getLsbD 1, b.getLsbD 0 with
  | false, false, false, false => .br
  | false, false, false, true  => .add
  | false, false, true,  false => .ld
  | false, false, true,  true  => .st
  | false, true,  false, false => .jsr
  | false, true,  false, true  => .and
  | false, true,  true,  false => .ldr
  | false, true,  true,  true  => .str
  | true,  false, false, false => .rti
  | true,  false, false, true  => .not
  | true,  false, true,  false => .ldi
  | true,  false, true,  true  => .sti
  | true,  true,  false, false => .jmp
  | true,  true,  false, true  => .res
  | true,  true,  true,  false => .lea
  | true,  true,  true,  true  => .trap

/-- Bits [15:12] of an instruction word select its opcode (R49). -/
def opcodeOf (w : Word) : Opcode := Opcode.ofBits (w.extractLsb' 12 4)

/-- The number of an opcode (R49). -/
def Opcode.bits : Opcode → BitVec 4
  | .br => 0x0 | .add => 0x1 | .ld => 0x2 | .st => 0x3
  | .jsr => 0x4 | .and => 0x5 | .ldr => 0x6 | .str => 0x7
  | .rti => 0x8 | .not => 0x9 | .ldi => 0xA | .sti => 0xB
  | .jmp => 0xC | .res => 0xD | .lea => 0xE | .trap => 0xF

/-- DR of a load or operate instruction, SR of a store: bits [11:9] (R50). -/
def fieldDR (w : Word) : Reg := Reg.ofBits (w.extractLsb' 9 3)

/-- SR1, SR of NOT, BaseR: bits [8:6] (R50). -/
def fieldSR1 (w : Word) : Reg := Reg.ofBits (w.extractLsb' 6 3)

/-- SR2: bits [2:0] (R50). -/
def fieldSR2 (w : Word) : Reg := Reg.ofBits (w.extractLsb' 0 3)

/-- imm5: bits [4:0], sign-extended (R62). -/
def fieldImm5 (w : Word) : Word := sext (w.extractLsb' 0 5)

/-- offset6: bits [5:0], sign-extended (R62). -/
def fieldOff6 (w : Word) : Word := sext (w.extractLsb' 0 6)

/-- PCoffset9: bits [8:0], sign-extended (R62). -/
def fieldOff9 (w : Word) : Word := sext (w.extractLsb' 0 9)

/-- PCoffset11: bits [10:0], sign-extended (R62). -/
def fieldOff11 (w : Word) : Word := sext (w.extractLsb' 0 11)

/-- The decoder of R64. It has no default arm, and the ignored bits of R63 are not read. -/
def decode (w : Word) : Instr :=
  match opcodeOf w with
  | .br   => .br (w.getLsbD 11) (w.getLsbD 10) (w.getLsbD 9) (fieldOff9 w)
  | .add  => if w.getLsbD 5 then .addI (fieldDR w) (fieldSR1 w) (fieldImm5 w)
             else .addR (fieldDR w) (fieldSR1 w) (fieldSR2 w)
  | .ld   => .ld (fieldDR w) (fieldOff9 w)
  | .st   => .st (fieldDR w) (fieldOff9 w)
  | .jsr  => if w.getLsbD 11 then .jsr (fieldOff11 w) else .jsrr (fieldSR1 w)
  | .and  => if w.getLsbD 5 then .andI (fieldDR w) (fieldSR1 w) (fieldImm5 w)
             else .andR (fieldDR w) (fieldSR1 w) (fieldSR2 w)
  | .ldr  => .ldr (fieldDR w) (fieldSR1 w) (fieldOff6 w)
  | .str  => .str (fieldDR w) (fieldSR1 w) (fieldOff6 w)
  | .rti  => .rti
  | .not  => .notR (fieldDR w) (fieldSR1 w)
  | .ldi  => .ldi (fieldDR w) (fieldOff9 w)
  | .sti  => .sti (fieldDR w) (fieldOff9 w)
  | .jmp  => .jmp (fieldSR1 w)
  | .res  => .res
  | .lea  => .lea (fieldDR w) (fieldOff9 w)
  | .trap => .trap (w.extractLsb' 0 8)

/-- A word with the field b at bits [lo+n-1:lo] and zeros elsewhere. -/
def place {n : Nat} (lo : Nat) (b : BitVec n) : Word := b.setWidth 16 <<< lo

/-- The opcode in bits [15:12] (R49). -/
def placeOp (o : Opcode) : Word := place 12 o.bits

/-- A word of format PC9 (R58): opcode, DR or SR, PCoffset9. -/
def packPC9 (o : Opcode) (r : Reg) (off : Word) : Word :=
  placeOp o ||| place 9 r.toBits ||| place 0 (off.extractLsb' 0 9)

/-- A word of format BASE6 (R59): opcode, DR or SR, BaseR, offset6. -/
def packBASE6 (o : Opcode) (r base : Reg) (off : Word) : Word :=
  placeOp o ||| place 9 r.toBits ||| place 6 base.toBits ||| place 0 (off.extractLsb' 0 6)

/-- A word of format OPR (R51): imm_flag 0 and zeros in the ignored bits [4:3]. -/
def packOPR (o : Opcode) (dr sr1 sr2 : Reg) : Word :=
  placeOp o ||| place 9 dr.toBits ||| place 6 sr1.toBits ||| place 0 sr2.toBits

/-- A word of format OPI (R52): imm_flag 1. -/
def packOPI (o : Opcode) (dr sr1 : Reg) (imm : Word) : Word :=
  placeOp o ||| place 9 dr.toBits ||| place 6 sr1.toBits ||| place 5 0b1#1 ||| place 0 (imm.extractLsb' 0 5)

/-- The word of an instruction, by the formats R51 to R61. Ignored bits are filled as the standard
encoding fills them: NOT [5:0] with ones (R53), all others with zeros (R55, R60). -/
def encode (i : Instr) : Word :=
  match i with
  | .br n z p off =>
    placeOp .br ||| place 11 (BitVec.ofBool n) ||| place 10 (BitVec.ofBool z) |||
      place 9 (BitVec.ofBool p) ||| place 0 (off.extractLsb' 0 9)
  | .addR dr sr1 sr2 => packOPR .add dr sr1 sr2
  | .addI dr sr1 imm => packOPI .add dr sr1 imm
  | .ld dr off => packPC9 .ld dr off
  | .st sr off => packPC9 .st sr off
  | .jsr off => placeOp .jsr ||| place 11 0b1#1 ||| place 0 (off.extractLsb' 0 11)
  | .jsrr base => placeOp .jsr ||| place 6 base.toBits
  | .andR dr sr1 sr2 => packOPR .and dr sr1 sr2
  | .andI dr sr1 imm => packOPI .and dr sr1 imm
  | .ldr dr base off => packBASE6 .ldr dr base off
  | .str sr base off => packBASE6 .str sr base off
  | .rti => placeOp .rti
  | .notR dr sr => placeOp .not ||| place 9 dr.toBits ||| place 6 sr.toBits ||| place 0 0b111111#6
  | .ldi dr off => packPC9 .ldi dr off
  | .sti sr off => packPC9 .sti sr off
  | .jmp base => placeOp .jmp ||| place 6 base.toBits
  | .res => placeOp .res
  | .lea dr off => packPC9 .lea dr off
  | .trap vect => placeOp .trap ||| place 0 vect

/-- The word of a row of the opcode table: its nbits low bits, zeros above. -/
def tableWord (nbits w : Nat) : Word := BitVec.ofNat 16 (w % 2 ^ nbits)

/-- The instruction the decoder reads from an opcode-table row's word. Every instruction is one
16-bit word (R48), so a row of more bits is none of this machine's. -/
def decodeTableWord (nbits w : Nat) : Option Instr :=
  if nbits ≤ 16 then some (decode (tableWord nbits w)) else none

end Sys2Proof
end

