-- ==== Sys2Proof/Config.lean ====
section
/-! DEFINITION. The configuration parameters of 00_scope.md R9 that the source does not fix. -/

namespace Sys2Proof

/-- The parameters a model takes with defaults (R9, D4, D5, D16). Their default values stand in
Machine/Defaults.lean; every claim is about every value of them. -/
structure Config where
  /-- KBSR_ADDR, the keyboard status cell's address (R22). -/
  kbsrAddr : Word
  /-- KBDR_ADDR, the keyboard data cell's address (R23). -/
  kbdrAddr : Word
  /-- TRAP_GETC (R92). -/
  trapGetc : BitVec 8
  /-- TRAP_OUT (R93). -/
  trapOut : BitVec 8
  /-- TRAP_PUTS (R94). -/
  trapPuts : BitVec 8
  /-- TRAP_IN (R95). -/
  trapIn : BitVec 8
  /-- TRAP_PUTSP (R96). -/
  trapPutsp : BitVec 8
  /-- TRAP_HALT (R97). -/
  trapHalt : BitVec 8
  /-- HALT_NOTICE (R97). -/
  haltNotice : List Byte
  /-- IN_PROMPT (R95). -/
  inPrompt : List Byte
  deriving DecidableEq, Repr

/-- The six trap vectors, in the order of R90. -/
def Config.vectors (c : Config) : List (BitVec 8) :=
  [c.trapGetc, c.trapOut, c.trapPuts, c.trapIn, c.trapPutsp, c.trapHalt]

/-- What the spec asks of the parameters: the two addresses differ (D4) and the six vectors are
distinct (D5). -/
def Config.wf (c : Config) : Bool :=
  decide (c.kbsrAddr ≠ c.kbdrAddr) && decide c.vectors.Nodup

end Sys2Proof
end

