-- ==== Sys2Proof/Machine/Defaults.lean ====
section
/-! DEFINITION. The default values of the parameters and the entry address (00_scope.md R9). -/

namespace Sys2Proof.Machine

/-- ENTRY, the reset pc (R117). -/
def entry : Word := 0x3000

/-- "HALT" and a line feed (R9, D16). -/
def defaultHaltNotice : List Byte := [0x48, 0x41, 0x4C, 0x54, 0x0A]

/-- "Enter a character: " (R9, D16). -/
def defaultInPrompt : List Byte :=
  [0x45, 0x6E, 0x74, 0x65, 0x72, 0x20, 0x61, 0x20] ++
  [0x63, 0x68, 0x61, 0x72, 0x61, 0x63, 0x74, 0x65, 0x72, 0x3A, 0x20]

/-- The parameters with the defaults of R9 (D4, D5, D16). -/
def defaultConfig : Config where
  kbsrAddr := 0xFE00
  kbdrAddr := 0xFE02
  trapGetc := 0x20
  trapOut := 0x21
  trapPuts := 0x22
  trapIn := 0x23
  trapPutsp := 0x24
  trapHalt := 0x25
  haltNotice := defaultHaltNotice
  inPrompt := defaultInPrompt

end Sys2Proof.Machine
end

