-- ==== Sys2Proof/Machine/State.lean ====
section
/-! DEFINITION. The state of the machine (10_state.md), the ways a step can stop, and reset (70_reset_and_hazards.md R116). -/

namespace Sys2Proof.Machine

/-- The register file: eight 16-bit registers, none hardwired (R15). -/
structure RegFile where
  r0 : Word
  r1 : Word
  r2 : Word
  r3 : Word
  r4 : Word
  r5 : Word
  r6 : Word
  r7 : Word
  deriving DecidableEq, Repr

/-- cond holds exactly one of negative, zero, positive (R18). -/
inductive Cond where
  | n | z | p
  deriving DecidableEq, Repr

/-- run_state (R26). -/
inductive RunState where
  | running | halted
  deriving DecidableEq, Repr

/-- halt_reason (R26). -/
inductive HaltReason where
  | haltTrap | unsupportedOpcode | unsupportedTrap
  deriving DecidableEq, Repr

/-- An instruction word and the address it was fetched from: the content of fault_info (R101). -/
structure FaultInfo where
  instr : Word
  addr : Word
  deriving DecidableEq, Repr

/-- Which party an address reaches (R31). -/
inductive Target where
  | storage | kbsr | kbdr
  deriving DecidableEq, Repr

/-- The storage array M (R25): the cells that are not 0x0000, by rising address. The machine's
smallest addressable unit is the word (R30, R39), so a cell is an address and a word. An unlisted
address reads as 0x0000, the reset content (R116). -/
abbrev Memory := List (Nat × Word)

/-- The canonical form of a memory: addresses strictly rising and below 2^16, no cell holding the
0x0000 that an unlisted address reads as. -/
def Memory.wf (m : Memory) : Bool :=
  decide (m.Pairwise fun c d => c.1 < d.1) && m.all fun c => decide (c.1 < 65536) && decide (c.2 ≠ 0#16)

/-- The state of the machine (10_state.md section 8), with what the host holds at its interface (R8). -/
structure State where
  /-- R0 to R7 (R15). -/
  regs : RegFile
  /-- The program counter (R17). -/
  pc : Word
  /-- The condition flags (R18). -/
  cond : Cond
  /-- KBSR bit 15: a key is latched and not yet consumed (R22, R24). -/
  kbReady : Bool
  /-- KBDR: the most recent key's code (R23, R24). -/
  kbData : Word
  /-- M, the storage array (R25). -/
  mem : Memory
  /-- run_state (R26). -/
  runState : RunState
  /-- halt_reason, empty while none (R26). -/
  haltReason : Option HaltReason
  /-- fault_info, empty while none (R26, R101). -/
  faultInfo : Option FaultInfo
  /-- The bytes passed to ConsoleOut, oldest first (R28). -/
  output : List Byte
  /-- The instruction register of R27 and the address a of R73. Not architectural: every fetch
  writes it before anything reads it. -/
  fetched : FaultInfo
  /-- MODEL's own: what the console will answer, the next answer first; none is "no key" (R8, R28, P4). -/
  input : List (Option Byte)
  /-- MODEL's own: the host's termination request (R8, R108). -/
  abort : Bool
  /-- The parameters (R9); no step changes them. -/
  cfg : Config
  deriving DecidableEq, Repr

/-- Why a step never completes (60_exceptions.md R109: hold and hang). The machine's two fatal
errors are no Fault: they are next states, Halted with a reason (R101). -/
inductive Fault where
  /-- A hold, raised by GETC and IN when no key is latched and the console never answers (R91, R109).
  The step has not happened: the state is still the one before it. `written` is what the instruction
  has already sent to the console (IN's prompt, R95). Safe: the model has no step where the machine
  has none (P5). -/
  | keyWaitHold (written : List Byte)
  /-- A hang, raised by PUTS and PUTSP over memory that holds no terminator (R94, R96, R109). Safe:
  the machine never completes this step either (P6). -/
  | stringHang
  deriving DecidableEq, Repr

/-- Why the model gives a step no meaning. -/
inductive Refusal where
  /-- Raised by an arm of exec whose instruction has no meaning yet (none is left). Safe. -/
  | notModelled (mnemonic : String)
  /-- Raised by step when the host has asked for termination: the run is cut off without reaching
  Halted and a claim says nothing of it (R108, P7). Safe. -/
  | hostAbort
  deriving DecidableEq, Repr

/-- What one step or one instruction answers. -/
abbrev Result := Host.Outcome State Fault Refusal

/-- Every register 0x0000 (R15, R116). -/
def RegFile.zero : RegFile := ⟨0, 0, 0, 0, 0, 0, 0, 0⟩

/-- The machine right after reset (R116, R117), with the default parameters of R9. The values of
`fetched`, `input` and `abort` are the model's (log entries 3, 4, 5). -/
def State.reset : State where
  regs := RegFile.zero
  pc := entry
  cond := .z
  kbReady := false
  kbData := 0
  mem := []
  runState := .running
  haltReason := none
  faultInfo := none
  output := []
  fetched := ⟨0, 0⟩
  input := []
  abort := false
  cfg := defaultConfig

end Sys2Proof.Machine
end

