-- ==== Sys2Proof/Machine/Ops.lean ====
section
/-! DEFINITION. The named operations over registers, memory, the keyboard cells and the console
(20_memory.md, 43_trap.md R91), the ALU (40_operate.md R68), fetch, and the one operation that takes
a fatal error (60_exceptions.md R101). This machine has no return from an exception (R106). -/

namespace Sys2Proof.Machine

/-! ### The ALU (R68) -/

/-- ADD16: addition modulo 2^16, the carry discarded (R12, R68). -/
def add16 (a b : Word) : Word := a + b

/-- AND16, bit by bit (R68). -/
def and16 (a b : Word) : Word := a &&& b

/-- NOT16, each bit inverted (R68). -/
def not16 (a : Word) : Word := ~~~a

/-! ### Bytes and words -/

/-- v[7:0]. -/
def lowByte (v : Word) : Byte := v.extractLsb' 0 8

/-- v[15:8]. -/
def highByte (v : Word) : Byte := v.extractLsb' 8 8

/-- zext_16 of a key code: the high bits are 0 (R11, D11). -/
def zext (k : Byte) : Word := k.setWidth 16

/-! ### Registers -/

/-- x[i] of a register file (R13, R15). -/
def RegFile.get (f : RegFile) : Reg → Word
  | .r0 => f.r0 | .r1 => f.r1 | .r2 => f.r2 | .r3 => f.r3
  | .r4 => f.r4 | .r5 => f.r5 | .r6 => f.r6 | .r7 => f.r7

/-- x[i] <- v on a register file (R13, R15). -/
def RegFile.set (f : RegFile) (r : Reg) (v : Word) : RegFile :=
  match r with
  | .r0 => { f with r0 := v } | .r1 => { f with r1 := v }
  | .r2 => { f with r2 := v } | .r3 => { f with r3 := v }
  | .r4 => { f with r4 := v } | .r5 => { f with r5 := v }
  | .r6 => { f with r6 := v } | .r7 => { f with r7 := v }

/-- x[i]. -/
def State.reg (s : State) (r : Reg) : Word := s.regs.get r

/-- x[i] <- v. -/
def State.setReg (s : State) (r : Reg) (v : Word) : State := { s with regs := s.regs.set r v }

/-- pc <- t. -/
def State.setPc (s : State) (t : Word) : State := { s with pc := t }

/-- ConsoleOut of each byte in order (R8, R28). -/
def State.emit (s : State) (bs : List Byte) : State := { s with output := s.output ++ bs }

/-! ### Storage -/

/-- The word of storage cell a; an unlisted cell holds 0x0000 (R25, R116). -/
def Memory.read : Memory → Nat → Word
  | [], _ => 0#16
  | (k, v) :: m, a => if k = a then v else Memory.read m a

/-- The list without a cell at address a. -/
def Memory.unlist (m : Memory) (a : Nat) : Memory := m.filter fun c => decide (c.1 ≠ a)

/-- The list with a cell put in its place by rising address. -/
def Memory.enlist : Memory → Nat → Word → Memory
  | [], a, v => [(a, v)]
  | (k, w) :: m, a, v => if a < k then (a, v) :: (k, w) :: m else (k, w) :: Memory.enlist m a v

/-- M[a] <- v: the old cell goes, and the new one is listed unless it holds what an unlisted one
reads as. -/
def Memory.write (m : Memory) (a : Nat) (v : Word) : Memory :=
  if v = 0#16 then m.unlist a else (m.unlist a).enlist a v

/-- M[a] (R25): storage itself, no decoder in between. -/
def State.cell (s : State) (a : Word) : Word := s.mem.read a.toNat

/-- M[a] <- v (R25): storage itself, no decoder in between. -/
def State.setCell (s : State) (a v : Word) : State := { s with mem := s.mem.write a.toNat v }

/-! ### The console's answers (R8) -/

/-- KeyPoll: the console's next answer and the answers left. With none left it is "no key" (D13). -/
def keyPoll : List (Option Byte) → Option Byte × List (Option Byte)
  | [] => (none, [])
  | o :: rest => (o, rest)

/-- KeyWait: passes over the moments with no key and takes the next key; none when no key ever
comes (R91, D13). -/
def keyWait : List (Option Byte) → Option (Byte × List (Option Byte))
  | [] => none
  | none :: rest => keyWait rest
  | some k :: rest => some (k, rest)

/-! ### The MMIO address decoder (R31 to R37) -/

/-- target(a) (R31). -/
def target (c : Config) (a : Word) : Target :=
  if a = c.kbsrAddr then .kbsr else if a = c.kbdrAddr then .kbdr else .storage

/-- The poll of R33 and R34: made only while no key is latched; a key found is latched. -/
def State.pollKey (s : State) : State :=
  if s.kbReady then s
  else
    match keyPoll s.input with
    | (some k, rest) => { s with kbData := zext k, kbReady := true, input := rest }
    | (none, rest) => { s with input := rest }

/-- The status word: 0x8000 when a key is latched, else 0x0000 (R22, R33). -/
def statusWord (ready : Bool) : Word := if ready then 0x8000#16 else 0x0000#16

/-- KbsrRead (R33). -/
def kbsrRead (s : State) : Word × State := (statusWord s.pollKey.kbReady, s.pollKey)

/-- KbdrRead (R34). -/
def kbdrRead (s : State) : Word × State := (s.pollKey.kbData, { s.pollKey with kbReady := false })

/-- MemRead(a, 1) (R32). -/
def memRead (a : Word) (s : State) : Word × State :=
  match target s.cfg a with
  | .storage => (s.cell a, s)
  | .kbsr => kbsrRead s
  | .kbdr => kbdrRead s

/-- MemWrite(a, 1, v) (R35): a write to a keyboard cell is discarded. -/
def memWrite (a v : Word) (s : State) : State :=
  match target s.cfg a with
  | .storage => s.setCell a v
  | .kbsr => s
  | .kbdr => s

/-- Peek(a) (R37): a read with no device side effect. -/
def peek (a : Word) (s : State) : Word :=
  match target s.cfg a with
  | .storage => s.cell a
  | .kbsr => statusWord s.kbReady
  | .kbdr => s.kbData

/-- GetKey (R91): the latched key if there is one, else KeyWait; none while KeyWait never answers. -/
def getKey (s : State) : Option (Word × State) :=
  if s.kbReady then some (s.kbData, { s with kbReady := false })
  else
    match keyWait s.input with
    | some (k, rest) => some (zext k, { s with kbData := zext k, input := rest })
    | none => none

/-! ### The ends of a run -/

/-- raise Fatal(reason, info) (R101): the whole of taking an exception on this machine. -/
def State.fatal (s : State) (reason : HaltReason) (info : FaultInfo) : State :=
  { s with runState := .halted, haltReason := some reason, faultInfo := some info }

/-- halt() (R97): the normal end of a run. -/
def State.halt (s : State) : State :=
  { s with runState := .halted, haltReason := some .haltTrap }

/-- The number of a fatal reason, for models that need one (R100, D17). -/
def HaltReason.code : HaltReason → Option Nat
  | .haltTrap => none
  | .unsupportedOpcode => some 1
  | .unsupportedTrap => some 2

/-! ### Fetch (R73, R74) -/

/-- Fetch: the word MemRead gives at pc, pc incremented modulo 2^16, and the word and its address
kept for a fatal error's report. -/
def fetch (s : State) : Word × State :=
  let r := memRead s.pc s
  (r.1, { r.2 with pc := s.pc + 1, fetched := ⟨r.1, s.pc⟩ })

/-- The first address from a on that reaches storage; the keyboard has two cells, so one of three
addresses does. Used only to place an instruction from outside the machine. -/
def storageFrom (c : Config) (a : Word) : Word :=
  if target c a = .storage then a else if target c (a + 1) = .storage then a + 1 else a + 2

/-- The state made ready to fetch w: w placed at pc, on a running core that nobody has asked to
stop. If pc is at a keyboard cell, which no one can store to, pc moves on to the next storage cell. -/
def State.placeInstr (s : State) (w : Word) : State :=
  let a := storageFrom s.cfg s.pc
  { s.setCell a w with pc := a, runState := .running, abort := false }

end Sys2Proof.Machine
end

