-- ==== Sys2Proof/Machine/Flags.lean ====
section
/-! DEFINITION. The condition flags: setcc (40_operate.md R69), the bit form of cond (10_state.md
R19) and the branch condition (41_control.md R76). -/

namespace Sys2Proof.Machine

/-- The cond that setcc(v) gives (R69): zero first, then the sign bit. -/
def Cond.ofValue (v : Word) : Cond :=
  if v = 0#16 then .z else if v.getLsbD 15 then .n else .p

/-- setcc(v) (R69). -/
def State.setcc (s : State) (v : Word) : State := { s with cond := Cond.ofValue v }

/-- x[dr] <- v, then setcc(v): the end of every instruction that writes DR (R69, R20). -/
def State.writeDest (s : State) (dr : Reg) (v : Word) : State := (s.setReg dr v).setcc v

/-- cond as the one-hot bits n, z, p (R19, D29); no instruction shows it. -/
def Cond.bits : Cond → BitVec 3
  | .n => 0b100 | .z => 0b010 | .p => 0b001

/-- A requested condition is the current one (R76). -/
def branchTaken (n z p : Bool) (c : Cond) : Bool :=
  (n && decide (c = .n)) || (z && decide (c = .z)) || (p && decide (c = .p))

end Sys2Proof.Machine
end

