-- ==== Sys2Proof/Machine/Operands.lean ====
section
/-! DEFINITION. The effective addresses of the addressing modes (42_load_store.md R81). The indirect
mode's address is a memory read and stands in the meanings of LDI and STI. -/

namespace Sys2Proof.Machine

/-- PC-relative: the already incremented pc plus the extended offset, modulo 2^16 (R81, R14). -/
def eaPC (off : Word) (s : State) : Word := add16 s.pc off

/-- Base + offset: the base register plus the extended offset, modulo 2^16 (R81). -/
def eaBase (base : Reg) (off : Word) (s : State) : Word := add16 (s.reg base) off

end Sys2Proof.Machine
end

