-- ==== Sys2Proof/Machine/Control.lean ====
section
/-! DEFINITION. BR, JMP (RET), JSR, JSRR (41_control.md). -/

namespace Sys2Proof.Machine

/-- BR (R76). -/
def execBr (n z p : Bool) (off : Word) (s : State) : Result :=
  .next (if branchTaken n z p s.cond then s.setPc (eaPC off s) else s)

/-- JMP, and RET when the base is R7 (R77). -/
def execJmp (base : Reg) (s : State) : Result :=
  .next (s.setPc (s.reg base))

/-- The link of JSR and JSRR: R7 takes the return address (R78, R79); cond is not touched (C1). -/
def State.link (s : State) : State := s.setReg .r7 s.pc

/-- JSR (R78). -/
def execJsr (off : Word) (s : State) : Result :=
  .next (s.link.setPc (eaPC off s))

/-- JSRR (R79): the base is read after R7 has taken the return address (D25). -/
def execJsrr (base : Reg) (s : State) : Result :=
  .next (s.link.setPc (s.link.reg base))

end Sys2Proof.Machine
end

