-- ==== Sys2Proof/Machine/LoadStore.lean ====
section
/-! DEFINITION. LD, LDI, LDR, LEA, ST, STI, STR (42_load_store.md). -/

namespace Sys2Proof.Machine

/-- v <- MemRead(ea); x[dr] <- v; setcc(v): the shared end of LD, LDI and LDR. -/
def State.loadFrom (s : State) (dr : Reg) (ea : Word) : State :=
  (memRead ea s).2.writeDest dr (memRead ea s).1

/-- LD (R82). -/
def execLd (dr : Reg) (off : Word) (s : State) : Result :=
  .next (s.loadFrom dr (eaPC off s))

/-- LDI (R83): the pointer is read first, then the value, both through the decoder. -/
def execLdi (dr : Reg) (off : Word) (s : State) : Result :=
  .next ((memRead (eaPC off s) s).2.loadFrom dr (memRead (eaPC off s) s).1)

/-- LDR (R84): the base is read before DR is written. -/
def execLdr (dr base : Reg) (off : Word) (s : State) : Result :=
  .next (s.loadFrom dr (eaBase base off s))

/-- LEA (R85): no memory access. -/
def execLea (dr : Reg) (off : Word) (s : State) : Result :=
  .next (s.writeDest dr (eaPC off s))

/-- ST (R86). -/
def execSt (sr : Reg) (off : Word) (s : State) : Result :=
  .next (memWrite (eaPC off s) (s.reg sr) s)

/-- STI (R87): the pointer read, with its side effects, comes before the write. -/
def execSti (sr : Reg) (off : Word) (s : State) : Result :=
  .next (memWrite (memRead (eaPC off s) s).1 ((memRead (eaPC off s) s).2.reg sr) (memRead (eaPC off s) s).2)

/-- STR (R88). -/
def execStr (sr base : Reg) (off : Word) (s : State) : Result :=
  .next (memWrite (eaBase base off s) (s.reg sr) s)

end Sys2Proof.Machine
end

