-- ==== Sys2Proof/Machine/Operate.lean ====
section
/-! DEFINITION. ADD, AND, NOT (40_operate.md). In every meaning pc is already incremented (R74). -/

namespace Sys2Proof.Machine

/-- ADD, register form (R70). -/
def execAddR (dr sr1 sr2 : Reg) (s : State) : Result :=
  .next (s.writeDest dr (add16 (s.reg sr1) (s.reg sr2)))

/-- ADD, immediate form (R70). -/
def execAddI (dr sr1 : Reg) (imm : Word) (s : State) : Result :=
  .next (s.writeDest dr (add16 (s.reg sr1) imm))

/-- AND, register form (R71). -/
def execAndR (dr sr1 sr2 : Reg) (s : State) : Result :=
  .next (s.writeDest dr (and16 (s.reg sr1) (s.reg sr2)))

/-- AND, immediate form (R71). -/
def execAndI (dr sr1 : Reg) (imm : Word) (s : State) : Result :=
  .next (s.writeDest dr (and16 (s.reg sr1) imm))

/-- NOT (R72). -/
def execNotR (dr sr : Reg) (s : State) : Result :=
  .next (s.writeDest dr (not16 (s.reg sr)))

end Sys2Proof.Machine
end

