-- ==== Sys2Proof/Machine/Trap.lean ====
section
/-! DEFINITION. TRAP, its dispatcher and six services, RTI and RES (43_trap.md). -/

namespace Sys2Proof.Machine

/-- GETC (R92): one key into R0, flags from it (D7), no echo. -/
def trapGetc (s : State) : Result :=
  match getKey s with
  | some (k, s') => .next (s'.writeDest .r0 k)
  | none => .fault (.keyWaitHold [])

/-- OUT (R93). -/
def trapOut (s : State) : Result :=
  .next (s.emit [lowByte (s.reg .r0)])

/-- How many words a string scan reads before it has been at every address: all 2^16 of them. -/
def scanFuel : Nat := 65536

/-- The bytes PUTS writes from address a on (R94): the low byte of each word up to the first
0x0000. None when the words read hold no 0x0000; nothing changes during the scan, so a scan that has
read all of memory goes on for ever. -/
def putsScan (s : State) : Nat → Word → Option (List Byte)
  | 0, _ => none
  | n + 1, a =>
    if peek a s = 0#16 then some []
    else (putsScan s n (a + 1#16)).map fun bs => lowByte (peek a s) :: bs

/-- The bytes one PUTSP word gives: its low byte, then its high byte unless that is 0x00 (R96, D15). -/
def putspWord (c : Word) : List Byte :=
  if highByte c = 0#8 then [lowByte c] else [lowByte c, highByte c]

/-- The bytes PUTSP writes from address a on (R96), up to the first word whose low byte is 0x00. -/
def putspScan (s : State) : Nat → Word → Option (List Byte)
  | 0, _ => none
  | n + 1, a =>
    if lowByte (peek a s) = 0#8 then some []
    else (putspScan s n (a + 1#16)).map fun bs => putspWord (peek a s) ++ bs

/-- A string service's end: the bytes written, or a step that never completes (R94, R96, D14). -/
def State.putString (s : State) : Option (List Byte) → Result
  | some bs => .next (s.emit bs)
  | none => .fault .stringHang

/-- PUTS (R94). -/
def trapPuts (s : State) : Result := s.putString (putsScan s scanFuel (s.reg .r0))

/-- PUTSP (R96). -/
def trapPutsp (s : State) : Result := s.putString (putspScan s scanFuel (s.reg .r0))

/-- IN (R95): the prompt, then the key, its echo, R0 and the flags (D7). -/
def trapIn (s : State) : Result :=
  match getKey (s.emit s.cfg.inPrompt) with
  | some (k, s') => .next ((s'.emit [lowByte k]).writeDest .r0 k)
  | none => .fault (.keyWaitHold s.cfg.inPrompt)

/-- HALT (R97). -/
def trapHalt (s : State) : Result := .next (s.emit s.cfg.haltNotice).halt

/-- TRAP (R89): the dispatcher's fixed table (R90). A vector outside it is the fatal error
UnsupportedTrap, raised before any service effect (R98, R104). TRAP writes no R7 and leaves pc (D6). -/
def execTrap (vect : BitVec 8) (s : State) : Result :=
  if vect = s.cfg.trapGetc then trapGetc s
  else if vect = s.cfg.trapOut then trapOut s
  else if vect = s.cfg.trapPuts then trapPuts s
  else if vect = s.cfg.trapIn then trapIn s
  else if vect = s.cfg.trapPutsp then trapPutsp s
  else if vect = s.cfg.trapHalt then trapHalt s
  else .next (s.fatal .unsupportedTrap s.fetched)

/-- RTI (R99): the fatal error UnsupportedOpcode. -/
def execRti (s : State) : Result := .next (s.fatal .unsupportedOpcode s.fetched)

/-- RES (R99): the fatal error UnsupportedOpcode. -/
def execRes (s : State) : Result := .next (s.fatal .unsupportedOpcode s.fetched)

end Sys2Proof.Machine
end

