-- ==== Sys2Proof/Machine/Step.lean ====
section
/-! DEFINITION. One step (41_control.md R73) and the placing of an instruction to be fetched next. -/

namespace Sys2Proof.Machine

/-- Step (R73): a Halted core's state does not change (D30); the host's termination request acts
between steps (R108); else fetch, decode, execute. -/
def step (s : State) : Host.Outcome State Fault Refusal :=
  match s.runState with
  | .halted => .next s
  | .running =>
    if s.abort then .refused .hostAbort
    else exec (decode (fetch s).1) (fetch s).2

/-- s with an opcode-table row's word placed where step fetches its next instruction. -/
def State.withFetchWord (s : State) (nbits w : Nat) : State := s.placeInstr (tableWord nbits w)

end Sys2Proof.Machine
end

