-- ==== Sys2Proof/Machine/Loader.lean ====
section
/-! DEFINITION. The image loader's contract at the block's boundary (20_memory.md R38,
70_reset_and_hazards.md R117, R118). It writes storage directly, never through MemWrite; step does
not call it. -/

namespace Sys2Proof.Machine

/-- Why a load fails, so that no run starts (R38, R100, R118). -/
inductive ImageLoadError where
  /-- No image was given (R118: missing arguments). -/
  | noImages
  /-- A file of fewer than two bytes, so with no origin (R38, D28). -/
  | noOrigin
  /-- A file with an odd number of bytes (R38, D28). -/
  | oddLength
  /-- The image would pass 0xFFFF (R38, D27). -/
  | tooLong
  deriving DecidableEq, Repr

/-- A word of an image file: the first byte is bits [15:8] (R39). -/
def beWord (hi lo : Byte) : Word := hi.setWidth 16 <<< 8 ||| lo.setWidth 16

/-- The big-endian words of a file; none when a byte is left over (R38). -/
def fileWords : List Byte → Option (List Word)
  | [] => some []
  | [_] => none
  | hi :: lo :: rest => (fileWords rest).map fun ws => beWord hi lo :: ws

/-- The words stored at consecutive addresses from a on (R38). -/
def storeWords : Memory → Nat → List Word → Memory
  | m, _, [] => m
  | m, a, w :: ws => storeWords (m.write a w) (a + 1) ws

/-- One image (R38): the origin word, then the words from the origin on; n words load at origin o
when o + n ≤ 0x10000 (D27). -/
def loadImage (m : Memory) (file : List Byte) : Except ImageLoadError Memory :=
  if file.length < 2 then .error .noOrigin
  else
    match fileWords file with
    | some (o :: ws) =>
      if o.toNat + ws.length ≤ 0x10000 then .ok (storeWords m o.toNat ws) else .error .tooLong
    | _ => .error .oddLength

/-- The images in order, later ones over earlier ones (R118). -/
def loadImages : Memory → List (List Byte) → Except ImageLoadError Memory
  | m, [] => .ok m
  | m, f :: fs =>
    match loadImage m f with
    | .ok m' => loadImages m' fs
    | .error e => .error e

/-- The state before the first step: reset, then the images loaded; pc stays 0x3000 (R116, R117). -/
def boot (files : List (List Byte)) : Except ImageLoadError State :=
  match files with
  | [] => .error .noImages
  | f :: fs =>
    match loadImages State.reset.mem (f :: fs) with
    | .ok m => .ok { State.reset with mem := m }
    | .error e => .error e

end Sys2Proof.Machine
end

