-- ==== Sys2Proof/Safety.lean ====
section
/-! DEFINITION. The terms claims are stated in: the invariant of the machine, how a step can end
(60_exceptions.md R109), and what it means that parts of two states are the same. -/

namespace Sys2Proof.Machine

/-! ### The invariant -/

/-- A fatal reason (R26, R101). -/
def HaltReason.isFatal : HaltReason → Bool
  | .haltTrap => false
  | .unsupportedOpcode => true
  | .unsupportedTrap => true

/-- What every reachable state of the machine meets. -/
structure State.Inv (s : State) : Prop where
  /-- The memory is in its canonical form. -/
  memWf : s.mem.wf = true
  /-- KBDR[15:8] is 0 (R23). -/
  kbDataByte : highByte s.kbData = 0#8
  /-- The parameters are as D4 and D5 ask. -/
  cfgWf : s.cfg.wf = true
  /-- halt_reason is there exactly when the core is Halted (R26). -/
  haltReason_iff : s.runState = .halted ↔ s.haltReason.isSome = true
  /-- fault_info is there exactly when halt_reason is fatal (R26). -/
  faultInfo_iff : s.faultInfo.isSome = true ↔ ∃ r, s.haltReason = some r ∧ r.isFatal = true

/-! ### The ends of a step (R109) -/

/-- The classes of R109; a program loop is no end of a step. -/
inductive StepEnd where
  | goesOn | normalEnd | fatalEnd | hold | hang | cutOff
  deriving DecidableEq, Repr

/-- The class of a step's result (R109). -/
def stepEnd : Result → StepEnd
  | .next s =>
    match s.runState, s.haltReason with
    | .halted, some .haltTrap => .normalEnd
    | .halted, _ => .fatalEnd
    | .running, _ => .goesOn
  | .fault (.keyWaitHold _) => .hold
  | .fault .stringHang => .hang
  | .refused _ => .cutOff

/-! ### Frames -/

/-- cond shows the sign of v, read as a signed number (R69). -/
def Cond.Shows (c : Cond) (v : Word) : Prop :=
  (c = .z ↔ v.toInt = 0) ∧ (c = .n ↔ v.toInt < 0) ∧ (c = .p ↔ 0 < v.toInt)

/-- Every register but r holds what it held. -/
def SameRegsBut (r : Reg) (s t : State) : Prop := ∀ q, q ≠ r → t.reg q = s.reg q

/-- Every register holds what it held. -/
def SameRegs (s t : State) : Prop := ∀ q, t.reg q = s.reg q

/-- Every storage cell holds what it held. -/
def SameCells (s t : State) : Prop := ∀ a, t.cell a = s.cell a

/-- Every storage cell but a holds what it held. -/
def SameCellsBut (a : Word) (s t : State) : Prop := ∀ b, b ≠ a → t.cell b = s.cell b

/-- The keyboard cells and the console's answers are as they were. -/
def SameKeyboard (s t : State) : Prop :=
  t.kbReady = s.kbReady ∧ t.kbData = s.kbData ∧ t.input = s.input

/-- The run state, its report, the fetched word, the host's request and the parameters are as they
were. -/
def SameRun (s t : State) : Prop :=
  t.runState = s.runState ∧ t.haltReason = s.haltReason ∧ t.faultInfo = s.faultInfo ∧
    t.fetched = s.fetched ∧ t.abort = s.abort ∧ t.cfg = s.cfg

/-- DR of the instructions the source's table marks "yes (dr)": those that write DR and set the flags
from it (R20). -/
def destOf : Instr → Option Reg
  | .br _ _ _ _ => none
  | .addR dr _ _ => some dr
  | .addI dr _ _ => some dr
  | .ld dr _ => some dr
  | .st _ _ => none
  | .jsr _ => none
  | .jsrr _ => none
  | .andR dr _ _ => some dr
  | .andI dr _ _ => some dr
  | .ldr dr _ _ => some dr
  | .str _ _ _ => none
  | .rti => none
  | .notR dr _ => some dr
  | .ldi dr _ => some dr
  | .sti _ _ => none
  | .jmp _ => none
  | .res => none
  | .lea dr _ => some dr
  | .trap _ => none

/-- The frame of an instruction that writes DR and cond and touches no memory and no device. -/
def DestFrame (dr : Reg) (s t : State) : Prop :=
  SameRegsBut dr s t ∧ t.pc = s.pc ∧ SameKeyboard s t ∧ SameCells s t ∧ t.output = s.output ∧ SameRun s t

/-- The frame of a load: as `DestFrame`, but the keyboard is as the reads left it in s₁. -/
def LoadFrame (dr : Reg) (s₁ s t : State) : Prop :=
  SameRegsBut dr s t ∧ t.pc = s.pc ∧ SameKeyboard s₁ t ∧ SameCells s t ∧ t.output = s.output ∧ SameRun s t

/-- The frame of a store to ea: no register, no flag, no cell but ea; the keyboard is as the reads
left it in s₁. -/
def StoreFrame (ea : Word) (s₁ s t : State) : Prop :=
  SameRegs s t ∧ t.cond = s.cond ∧ t.pc = s.pc ∧ SameKeyboard s₁ t ∧ SameCellsBut ea s t ∧
    t.output = s.output ∧ SameRun s t

/-- The frame of a control transfer but for pc and the registers. -/
def JumpFrame (s t : State) : Prop :=
  t.cond = s.cond ∧ SameKeyboard s t ∧ SameCells s t ∧ t.output = s.output ∧ SameRun s t

/-- The frame of a service that takes a key into R0: output and the keyboard apart. -/
def KeyFrame (s t : State) : Prop :=
  SameRegsBut .r0 s t ∧ t.pc = s.pc ∧ SameCells s t ∧ SameRun s t

/-- The frame of a service that only writes to the console. -/
def PrintFrame (s t : State) : Prop :=
  SameRegs s t ∧ t.cond = s.cond ∧ t.pc = s.pc ∧ SameKeyboard s t ∧ SameCells s t ∧ SameRun s t

/-- The console will answer some m times "no key", then k, then `rest`. -/
def KeyComes (input : List (Option Byte)) (k : Byte) (rest : List (Option Byte)) : Prop :=
  ∃ m, input = List.replicate m none ++ some k :: rest

/-- The console never has a key again. -/
def NoKeyComes (input : List (Option Byte)) : Prop := ∀ o ∈ input, o = none

/-! ### Encodings -/

/-- The bits of an instruction's word that the decoder ignores (30_encoding.md R63). -/
def ignoredBits : Instr → Word
  | .br _ _ _ _ => 0
  | .addR _ _ _ => 0x0018
  | .addI _ _ _ => 0
  | .ld _ _ => 0
  | .st _ _ => 0
  | .jsr _ => 0
  | .jsrr _ => 0x063F
  | .andR _ _ _ => 0x0018
  | .andI _ _ _ => 0
  | .ldr _ _ _ => 0
  | .str _ _ _ => 0
  | .rti => 0x0FFF
  | .notR _ _ => 0x003F
  | .ldi _ _ => 0
  | .sti _ _ => 0
  | .jmp _ => 0x0E3F
  | .res => 0x0FFF
  | .lea _ _ => 0
  | .trap _ => 0x0F00

/-- The big-endian file of an image: its origin, then its words (20_memory.md R38). -/
def imageFile (origin : Word) (ws : List Word) : List Byte :=
  (origin :: ws).flatMap fun w => [highByte w, lowByte w]

/-! ### Two machines that differ only where no program can look -/

/-- t is s with other contents in the storage cells behind the keyboard addresses, at most (D26). -/
def SameToPrograms (s t : State) : Prop :=
  t = { s with mem := t.mem } ∧ ∀ a, target s.cfg a = .storage → t.cell a = s.cell a

/-- Two results of one kind: next states that are the same to programs, or the same stop. -/
def ResultsAgree : Result → Result → Prop
  | .next s, .next t => SameToPrograms s t
  | .fault f, .fault g => f = g
  | .refused q, .refused r => q = r
  | _, _ => False

end Sys2Proof.Machine
end

