-- ==== Sys2Proof/Certificates/Slice0/Obligations.lean ====
section
/-! DEFINITION. The statements about the model, for the provers. `exec i s` is the instruction's own
effect: in s the fetch has happened and pc is the address after the instruction (R74). -/

open Sys2Proof Sys2Proof.Machine

/-! ### Encoding and decoding -/

/-- Words written out from R49 to R61 decode to what they stand for. Opcode numbers and field
positions are the spec's decision D1 (and D2 for bit 11 of JSR). -/
def Obligations.SampleWordsDecode : Prop :=
  decode 0b0001_001_001_1_11111 = .addI .r1 .r1 0xFFFF ∧
  decode 0b0001_000_001_0_00_010 = .addR .r0 .r1 .r2 ∧
  decode 0b1001_100_101_111111 = .notR .r4 .r5 ∧
  decode 0b0000_010_000000010 = .br false true false 2 ∧
  decode 0b0100_1_00000000101 = .jsr 5 ∧
  decode 0b0100_0_00_011_000000 = .jsrr .r3 ∧
  decode 0b0110_001_010_111111 = .ldr .r1 .r2 0xFFFF ∧
  decode 0b1011_001_000000010 = .sti .r1 2 ∧
  decode 0b1111_0000_00100101 = .trap 0x25

/-- The mask and match of every row of the opcode table, and every field of R50, bit by bit: a word
that fits a row decodes to the row's instruction with the row's fields. The numbers are the spec's
decision D1 (D2 for JSR), and the ignored bits its decision D3. -/
def Obligations.DecodeReadsEveryTableRow : Prop :=
  ∀ w : Word,
    let dr := Reg.ofBits (w.extractLsb' 9 3)
    let sr1 := Reg.ofBits (w.extractLsb' 6 3)
    let sr2 := Reg.ofBits (w.extractLsb' 0 3)
    let imm5 := (w.extractLsb' 0 5).signExtend 16
    let off6 := (w.extractLsb' 0 6).signExtend 16
    let off9 := (w.extractLsb' 0 9).signExtend 16
    let off11 := (w.extractLsb' 0 11).signExtend 16
    (w &&& 0xF000 = 0x0000 → decode w = .br (w.getLsbD 11) (w.getLsbD 10) (w.getLsbD 9) off9) ∧
    (w &&& 0xF020 = 0x1000 → decode w = .addR dr sr1 sr2) ∧
    (w &&& 0xF020 = 0x1020 → decode w = .addI dr sr1 imm5) ∧
    (w &&& 0xF000 = 0x2000 → decode w = .ld dr off9) ∧
    (w &&& 0xF000 = 0x3000 → decode w = .st dr off9) ∧
    (w &&& 0xF800 = 0x4800 → decode w = .jsr off11) ∧
    (w &&& 0xF800 = 0x4000 → decode w = .jsrr sr1) ∧
    (w &&& 0xF020 = 0x5000 → decode w = .andR dr sr1 sr2) ∧
    (w &&& 0xF020 = 0x5020 → decode w = .andI dr sr1 imm5) ∧
    (w &&& 0xF000 = 0x6000 → decode w = .ldr dr sr1 off6) ∧
    (w &&& 0xF000 = 0x7000 → decode w = .str dr sr1 off6) ∧
    (w &&& 0xF000 = 0x8000 → decode w = .rti) ∧
    (w &&& 0xF000 = 0x9000 → decode w = .notR dr sr1) ∧
    (w &&& 0xF000 = 0xA000 → decode w = .ldi dr off9) ∧
    (w &&& 0xF000 = 0xB000 → decode w = .sti dr off9) ∧
    (w &&& 0xF000 = 0xC000 → decode w = .jmp sr1) ∧
    (w &&& 0xF000 = 0xD000 → decode w = .res) ∧
    (w &&& 0xF000 = 0xE000 → decode w = .lea dr off9) ∧
    (w &&& 0xF000 = 0xF000 → decode w = .trap (w.extractLsb' 0 8))

/-- Decoding the word of a well-formed instruction gives the instruction back, every operand at
every value its field admits. The encoding is the spec's decision D1. -/
def Obligations.DecodeOfEncodeIsIdentity : Prop :=
  ∀ i : Instr, i.wf = true → decode (encode i) = i

/-- The decoder gives only instructions whose immediates are in the ranges of R62; the field widths'
places are the spec's decision D1. -/
def Obligations.DecodedInstructionIsWellFormed : Prop :=
  ∀ w : Word, (decode w).wf = true

/-- Two words decode to the same instruction exactly when they differ in ignored bits only (R63, the
spec's decision D3): no other bit is dropped, and none of those is read. -/
def Obligations.DecodeIgnoresExactlyTheUnusedBits : Prop :=
  ∀ w w' : Word, decode w = decode w' ↔ (w ^^^ w') &&& ~~~ (ignoredBits (decode w)) = 0

/-- R11: bit N-1 of the field is copied into every higher bit, the lower bits are kept, so the signed
value is kept and a second extension changes nothing; zext_16 fills the high bits with 0. -/
def Obligations.SextReplicatesTheSignBit : Prop :=
  (∀ n ∈ [5, 6, 9, 11], ∀ v : BitVec n,
    (∀ j < 16, (sext v).getLsbD j = if j < n then v.getLsbD j else v.getLsbD (n - 1)) ∧
    (sext v).toInt = v.toInt ∧
    sext ((sext v).extractLsb' 0 n) = sext v) ∧
  ∀ k : Byte, lowByte (zext k) = k ∧ highByte (zext k) = 0

/-! ### The register file, the flags and the addressing modes -/

/-- R15: each of the eight registers holds what is written to it, no write reaches another one, none
is hardwired, and each is 0x0000 at reset. -/
def Obligations.EachRegisterIsItsOwnCell : Prop :=
  (∀ (s : State) (r : Reg) (v : Word), (s.setReg r v).reg r = v ∧ SameRegsBut r s (s.setReg r v)) ∧
  ∀ r : Reg, State.reset.reg r = 0

/-- R69: setcc sets cond from the signed value, zero first, and changes nothing else; an instruction
that sets flags sets them from the value it wrote, after the write. -/
def Obligations.SetccFollowsTheSign : Prop :=
  (∀ (s : State) (v : Word),
    (s.setcc v).cond.Shows v ∧ ((s.setcc v).cond = .n ↔ v ≠ 0 ∧ v.getLsbD 15 = true) ∧
    s.setcc v = { s with cond := (s.setcc v).cond }) ∧
  ∀ (i : Instr) (dr : Reg) (s t : State), destOf i = some dr → exec i s = .next t →
    t.cond.Shows (t.reg dr)

/-- R12: + is addition modulo 2^16 with the carry discarded, & is bitwise AND, ~ the bitwise complement
within 16 bits. -/
def Obligations.ArithmeticIsModulo65536 : Prop :=
  ∀ a b : Word,
    (add16 a b).toNat = (a.toNat + b.toNat) % 65536 ∧
    (∀ j < 16, (and16 a b).getLsbD j = (a.getLsbD j && b.getLsbD j)) ∧
    ∀ j < 16, (not16 a).getLsbD j = !a.getLsbD j

/-- R81: the PC-relative and the base + offset addresses, modulo 2^16, from the already incremented
pc and from the base register. (The indirect mode is in LdiReadsThePointerThenTheValue and
StiStoresThroughThePointer.) -/
def Obligations.EffectiveAddressesWrap : Prop :=
  ∀ (s : State) (base : Reg) (off : Word),
    (eaPC off s).toNat = (s.pc.toNat + off.toNat) % 65536 ∧
    (eaBase base off s).toNat = ((s.reg base).toNat + off.toNat) % 65536

/-! ### Operate instructions -/

/-- R70: both forms of ADD: the sum modulo 2^16 in DR, cond from it, nothing else changed. The
operands are read from the state before the write, so DR may be a source. -/
def Obligations.AddWritesTheSumModulo : Prop :=
  (∀ (dr sr1 sr2 : Reg) (s : State), ∃ t, exec (.addR dr sr1 sr2) s = .next t ∧
    (t.reg dr).toNat = ((s.reg sr1).toNat + (s.reg sr2).toNat) % 65536 ∧
    t.cond.Shows (t.reg dr) ∧ DestFrame dr s t) ∧
  (∀ (dr sr1 : Reg) (imm : Word) (s : State), ∃ t, exec (.addI dr sr1 imm) s = .next t ∧
    (t.reg dr).toNat = ((s.reg sr1).toNat + imm.toNat) % 65536 ∧
    t.cond.Shows (t.reg dr) ∧ DestFrame dr s t)

/-- R71: both forms of AND, bit by bit. -/
def Obligations.AndWritesTheBitwiseAnd : Prop :=
  (∀ (dr sr1 sr2 : Reg) (s : State), ∃ t, exec (.andR dr sr1 sr2) s = .next t ∧
    (∀ j < 16, (t.reg dr).getLsbD j = ((s.reg sr1).getLsbD j && (s.reg sr2).getLsbD j)) ∧
    t.cond.Shows (t.reg dr) ∧ DestFrame dr s t) ∧
  (∀ (dr sr1 : Reg) (imm : Word) (s : State), ∃ t, exec (.andI dr sr1 imm) s = .next t ∧
    (∀ j < 16, (t.reg dr).getLsbD j = ((s.reg sr1).getLsbD j && imm.getLsbD j)) ∧
    t.cond.Shows (t.reg dr) ∧ DestFrame dr s t)

/-- R72: NOT inverts each of the 16 bits. -/
def Obligations.NotWritesTheComplement : Prop :=
  ∀ (dr sr : Reg) (s : State), ∃ t, exec (.notR dr sr) s = .next t ∧
    (∀ j < 16, (t.reg dr).getLsbD j = !(s.reg sr).getLsbD j) ∧
    t.cond.Shows (t.reg dr) ∧ DestFrame dr s t

/-! ### Control transfers -/

/-- R76: BR goes to pc + offset when a requested condition is the current one and to the next word
otherwise; with no condition requested it never branches, with all three always; it changes nothing
but pc. -/
def Obligations.BranchTakenIffRequestedConditionHolds : Prop :=
  ∀ (n z p : Bool) (off : Word) (s : State), ∃ t, exec (.br n z p off) s = .next t ∧
    ((n = true ∧ s.cond = .n) ∨ (z = true ∧ s.cond = .z) ∨ (p = true ∧ s.cond = .p) → t.pc = eaPC off s) ∧
    (¬ ((n = true ∧ s.cond = .n) ∨ (z = true ∧ s.cond = .z) ∨ (p = true ∧ s.cond = .p)) → t.pc = s.pc) ∧
    (n = false ∧ z = false ∧ p = false → t = s) ∧
    (n = true ∧ z = true ∧ p = true → t.pc = eaPC off s) ∧
    SameRegs s t ∧ JumpFrame s t

/-- R77: JMP sets pc to the base register, and so RET to R7; nothing else changes. -/
def Obligations.JmpGoesToTheBaseRegister : Prop :=
  ∀ (base : Reg) (s : State), ∃ t, exec (.jmp base) s = .next t ∧
    t.pc = s.reg base ∧ SameRegs s t ∧ JumpFrame s t

/-- R78: JSR puts the return address in R7, then adds the offset to pc; cond stays. -/
def Obligations.JsrLinksAndJumps : Prop :=
  ∀ (off : Word) (s : State), ∃ t, exec (.jsr off) s = .next t ∧
    t.reg .r7 = s.pc ∧ t.pc = eaPC off s ∧ SameRegsBut .r7 s t ∧ JumpFrame s t

/-- R79: JSRR puts the return address in R7, then goes to the base register; with R7 as its base it
goes to the word after itself (the spec's decision D25). -/
def Obligations.JsrrLinksThenReadsTheBase : Prop :=
  ∀ (base : Reg) (s : State), ∃ t, exec (.jsrr base) s = .next t ∧
    t.reg .r7 = s.pc ∧ (base ≠ .r7 → t.pc = s.reg base) ∧ (base = .r7 → t.pc = s.pc) ∧
    SameRegsBut .r7 s t ∧ JumpFrame s t

/-- R80's round trip: a JSR whose target holds RET comes back to the word after the JSR. -/
def Obligations.JsrThenRetReturnsAfterTheCall : Prop :=
  ∀ (s : State) (off : Word), s.runState = .running → s.abort = false →
    target s.cfg s.pc = .storage → decode (s.cell s.pc) = .jsr off →
    target s.cfg (s.pc + 1 + off) = .storage → decode (s.cell (s.pc + 1 + off)) = .jmp .r7 →
    ∃ t u, step s = .next t ∧ t.pc = s.pc + 1 + off ∧
      step t = .next u ∧ u.pc = s.pc + 1 ∧ u.reg .r7 = s.pc + 1

/-! ### Memory and the keyboard cells -/

/-- R33: a read of KBSR: a latched key reads 0x8000 and nothing is polled (the spec's decision D9);
else a key the console has is latched and reads 0x8000; else 0x0000 and no state of the block
changes. It never waits. -/
def Obligations.KbsrReadPollsOnlyWhileNoKeyIsLatched : Prop :=
  ∀ s : State,
    (s.kbReady = true → memRead s.cfg.kbsrAddr s = (0x8000, s)) ∧
    (∀ k rest, s.kbReady = false → s.input = some k :: rest →
      memRead s.cfg.kbsrAddr s = (0x8000, { s with kbReady := true, kbData := zext k, input := rest })) ∧
    (∀ rest, s.kbReady = false → s.input = none :: rest →
      memRead s.cfg.kbsrAddr s = (0x0000, { s with input := rest })) ∧
    (s.kbReady = false → s.input = [] → memRead s.cfg.kbsrAddr s = (0x0000, s))

/-- R34: a read of KBDR gives the latched key, or polls (the spec's decision D9) and gives the key
found, or gives the previous code; the ready bit is 0 afterwards. -/
def Obligations.KbdrReadConsumesTheKey : Prop :=
  ∀ s : State, s.cfg.wf = true →
    (s.kbReady = true → memRead s.cfg.kbdrAddr s = (s.kbData, { s with kbReady := false })) ∧
    (∀ k rest, s.kbReady = false → s.input = some k :: rest →
      memRead s.cfg.kbdrAddr s = (zext k, { s with kbReady := false, kbData := zext k, input := rest })) ∧
    (∀ rest, s.kbReady = false → s.input = none :: rest →
      memRead s.cfg.kbdrAddr s = (s.kbData, { s with input := rest })) ∧
    (s.kbReady = false → s.input = [] → memRead s.cfg.kbdrAddr s = (s.kbData, s))

/-- R35: a write to storage stores the word there and nowhere else; a write to a keyboard cell is
discarded (the spec's decision D10). Registers, flags, keyboard, output and run state stay. -/
def Obligations.MemWriteStoresOrIsDiscarded : Prop :=
  ∀ (a v : Word) (s : State),
    (target s.cfg a = .storage → (memWrite a v s).cell a = v ∧ SameCellsBut a s (memWrite a v s)) ∧
    (a = s.cfg.kbsrAddr ∨ a = s.cfg.kbdrAddr → memWrite a v s = s) ∧
    memWrite a v s = { s with mem := (memWrite a v s).mem }

/-- R36: what is written to a storage address is read back from it, and a step changes a storage cell
only by a store. That the cell is then a storage address is R35's (20_memory.md section 2) with the
spec's decision D10, and the address and the stored register are R86 to R88's (42_load_store.md
section 3). -/
def Obligations.StorageChangesOnlyByStores : Prop :=
  (∀ (a v : Word) (s : State), target s.cfg a = .storage → (memRead a (memWrite a v s)).1 = v) ∧
  ∀ (s t : State) (a : Word), step s = .next t → t.cell a ≠ s.cell a →
    target s.cfg a = .storage ∧
    ((∃ sr off, decode (fetch s).1 = .st sr off ∧ a = eaPC off (fetch s).2 ∧ t.cell a = s.reg sr) ∨
     (∃ sr off, decode (fetch s).1 = .sti sr off ∧
       a = (memRead (eaPC off (fetch s).2) (fetch s).2).1 ∧ t.cell a = s.reg sr) ∨
     (∃ sr base off, decode (fetch s).1 = .str sr base off ∧
       a = eaBase base off (fetch s).2 ∧ t.cell a = s.reg sr))

/-- R37: Peek gives what the cell holds, the status word or the data cell, and polls nothing (the
spec's decision D14): a console with a key changes no answer of it. -/
def Obligations.PeekNeverPolls : Prop :=
  ∀ (a : Word) (s : State) (input : List (Option Byte)), s.cfg.wf = true →
    (target s.cfg a = .storage → peek a s = s.cell a) ∧
    (a = s.cfg.kbsrAddr → peek a s = if s.kbReady then 0x8000 else 0x0000) ∧
    (a = s.cfg.kbdrAddr → peek a s = s.kbData) ∧
    peek a { s with input := input } = peek a s

/-! ### Loads and stores -/

/-- R82: LD puts what MemRead gives at pc + offset in DR, sets cond from it, and changes nothing else
but what that read does to the keyboard; from a storage address that is the stored word and the
keyboard stays. -/
def Obligations.LdLoadsFromThePcRelativeAddress : Prop :=
  ∀ (dr : Reg) (off : Word) (s : State), ∃ t, exec (.ld dr off) s = .next t ∧
    t.reg dr = (memRead (eaPC off s) s).1 ∧ t.cond.Shows (t.reg dr) ∧
    LoadFrame dr (memRead (eaPC off s) s).2 s t ∧
    (target s.cfg (eaPC off s) = .storage → t.reg dr = s.cell (eaPC off s) ∧ SameKeyboard s t)

/-- R83: LDI reads the pointer at pc + offset, then, in the state that read left, the value at the
pointer. -/
def Obligations.LdiReadsThePointerThenTheValue : Prop :=
  ∀ (dr : Reg) (off : Word) (s : State), ∃ t, exec (.ldi dr off) s = .next t ∧
    (let first := memRead (eaPC off s) s
     let second := memRead first.1 first.2
     t.reg dr = second.1 ∧ LoadFrame dr second.2 s t) ∧
    t.cond.Shows (t.reg dr) ∧
    (target s.cfg (eaPC off s) = .storage → target s.cfg (s.cell (eaPC off s)) = .storage →
      t.reg dr = s.cell (s.cell (eaPC off s)) ∧ SameKeyboard s t)

/-- R84: LDR, from the base register, read before DR is written, plus the offset. -/
def Obligations.LdrLoadsFromBasePlusOffset : Prop :=
  ∀ (dr base : Reg) (off : Word) (s : State), ∃ t, exec (.ldr dr base off) s = .next t ∧
    t.reg dr = (memRead (eaBase base off s) s).1 ∧ t.cond.Shows (t.reg dr) ∧
    LoadFrame dr (memRead (eaBase base off s) s).2 s t ∧
    (target s.cfg (eaBase base off s) = .storage →
      t.reg dr = s.cell (eaBase base off s) ∧ SameKeyboard s t)

/-- R85: LEA puts the address itself in DR and sets cond from it; no memory or device is touched, at a
keyboard address either. -/
def Obligations.LeaComputesTheAddressOnly : Prop :=
  ∀ (dr : Reg) (off : Word) (s : State), ∃ t, exec (.lea dr off) s = .next t ∧
    (t.reg dr).toNat = (s.pc.toNat + off.toNat) % 65536 ∧ t.cond.Shows (t.reg dr) ∧ DestFrame dr s t

/-- R86: ST stores SR at pc + offset and changes nothing else; at a keyboard address the write is
discarded (R35, the spec's decision D10). -/
def Obligations.StStoresAtThePcRelativeAddress : Prop :=
  ∀ (sr : Reg) (off : Word) (s : State), ∃ t, exec (.st sr off) s = .next t ∧
    StoreFrame (eaPC off s) s s t ∧
    (target s.cfg (eaPC off s) = .storage → t.cell (eaPC off s) = s.reg sr) ∧
    (target s.cfg (eaPC off s) ≠ .storage → t = s)

/-- R87: STI reads the pointer at pc + offset, then stores SR at the pointer; the keyboard is as the
pointer read left it; a pointer to a keyboard cell discards the write (R35, the spec's decision D10). -/
def Obligations.StiStoresThroughThePointer : Prop :=
  ∀ (sr : Reg) (off : Word) (s : State), ∃ t, exec (.sti sr off) s = .next t ∧
    (let r := memRead (eaPC off s) s
     StoreFrame r.1 r.2 s t ∧
     (target s.cfg r.1 = .storage → t.cell r.1 = s.reg sr) ∧
     (target s.cfg r.1 ≠ .storage → t = r.2)) ∧
    (target s.cfg (eaPC off s) = .storage → SameKeyboard s t)

/-- R88: STR stores SR at the base register plus the offset; SR may be the base; at a keyboard address
the write is discarded (R35, the spec's decision D10). -/
def Obligations.StrStoresAtBasePlusOffset : Prop :=
  ∀ (sr base : Reg) (off : Word) (s : State), ∃ t, exec (.str sr base off) s = .next t ∧
    StoreFrame (eaBase base off s) s s t ∧
    (target s.cfg (eaBase base off s) = .storage → t.cell (eaBase base off s) = s.reg sr) ∧
    (target s.cfg (eaBase base off s) ≠ .storage → t = s)

/-! ### TRAP, RTI and RES -/

/-- R92 and R91: GETC puts the latched key, or else the next key the console gives, in R0, sets cond
from it (the spec's decision D7), leaves no key latched (D12) and writes nothing to the console. -/
def Obligations.GetcReadsOneKeyIntoR0 : Prop :=
  ∀ s : State, s.cfg.wf = true →
    (s.kbReady = true → ∃ t, exec (.trap s.cfg.trapGetc) s = .next t ∧
      t.reg .r0 = s.kbData ∧ t.cond.Shows (t.reg .r0) ∧ t.kbReady = false ∧ t.kbData = s.kbData ∧
      t.input = s.input ∧ t.output = s.output ∧ KeyFrame s t) ∧
    (∀ k rest, s.kbReady = false → KeyComes s.input k rest →
      ∃ t, exec (.trap s.cfg.trapGetc) s = .next t ∧
        (t.reg .r0).toNat = k.toNat ∧ t.cond.Shows (t.reg .r0) ∧ t.kbReady = false ∧
        t.kbData = t.reg .r0 ∧ t.input = rest ∧ t.output = s.output ∧ KeyFrame s t)

/-- R95: IN writes the prompt, takes a key as GETC does (the spec's decisions D7, D12), echoes its low
byte and puts it in R0. -/
def Obligations.InPromptsReadsAndEchoes : Prop :=
  ∀ s : State, s.cfg.wf = true →
    (s.kbReady = true → ∃ t, exec (.trap s.cfg.trapIn) s = .next t ∧
      t.reg .r0 = s.kbData ∧ t.cond.Shows (t.reg .r0) ∧ t.kbReady = false ∧ t.kbData = s.kbData ∧
      t.input = s.input ∧ t.output = s.output ++ s.cfg.inPrompt ++ [lowByte s.kbData] ∧ KeyFrame s t) ∧
    (∀ k rest, s.kbReady = false → KeyComes s.input k rest →
      ∃ t, exec (.trap s.cfg.trapIn) s = .next t ∧
        (t.reg .r0).toNat = k.toNat ∧ t.cond.Shows (t.reg .r0) ∧ t.kbReady = false ∧
        t.kbData = t.reg .r0 ∧ t.input = rest ∧ t.output = s.output ++ s.cfg.inPrompt ++ [k] ∧ KeyFrame s t)

/-- R91 and R109 (the spec's decision D13): with no latched key, GETC and IN hold exactly when the
console never has a key again; IN's prompt has been written by then (R95). -/
def Obligations.KeyServicesHoldExactlyWhenNoKeyComes : Prop :=
  ∀ s : State, s.cfg.wf = true →
    (exec (.trap s.cfg.trapGetc) s = .fault (.keyWaitHold []) ↔ s.kbReady = false ∧ NoKeyComes s.input) ∧
    (exec (.trap s.cfg.trapIn) s = .fault (.keyWaitHold s.cfg.inPrompt) ↔
      s.kbReady = false ∧ NoKeyComes s.input)

/-- R109: a hold is lifted by the host supplying a key: the same step then completes and takes that
key. The invariant rules out a state whose KBDR holds a TRAP word, which no run reaches (R23). -/
def Obligations.HoldIsLiftedByAKey : Prop :=
  ∀ (s : State) (ws : List Byte) (k : Byte), s.Inv → step s = .fault (.keyWaitHold ws) →
    ∃ t, step { s with input := s.input ++ [some k] } = .next t ∧
      t.reg .r0 = zext k ∧ t.pc = s.pc + 1 ∧ t.input = [] ∧ ∃ echo, t.output = s.output ++ ws ++ echo

/-- R93: OUT writes the low byte of R0 to the console and changes nothing else. -/
def Obligations.OutWritesTheLowByteOfR0 : Prop :=
  ∀ s : State, s.cfg.wf = true → ∃ t, exec (.trap s.cfg.trapOut) s = .next t ∧
    (∃ b : Byte, t.output = s.output ++ [b] ∧ b.toNat = (s.reg .r0).toNat % 256) ∧ PrintFrame s t

/-- R94: PUTS writes the low byte of each word from the address in R0 on, up to the first 0x0000, the
address wrapping; the words are read by Peek (the spec's decision D14). -/
def Obligations.PutsWritesUpToTheFirstZeroWord : Prop :=
  ∀ (s : State) (n : Nat), s.cfg.wf = true →
    (∀ k < n, peek (s.reg .r0 + BitVec.ofNat 16 k) s ≠ 0) → peek (s.reg .r0 + BitVec.ofNat 16 n) s = 0 →
    ∃ t, exec (.trap s.cfg.trapPuts) s = .next t ∧
      t.output = s.output ++
        (List.range n).map (fun k => lowByte (peek (s.reg .r0 + BitVec.ofNat 16 k) s)) ∧
      PrintFrame s t

/-- R96: PUTSP writes each word's low byte and then its high byte unless that is 0x00 (the spec's
decision D15), up to the first word whose low byte is 0x00; read by Peek, wrapping (D14). -/
def Obligations.PutspWritesLowThenHighBytes : Prop :=
  ∀ (s : State) (n : Nat), s.cfg.wf = true →
    (∀ k < n, lowByte (peek (s.reg .r0 + BitVec.ofNat 16 k) s) ≠ 0) →
    lowByte (peek (s.reg .r0 + BitVec.ofNat 16 n) s) = 0 →
    ∃ t, exec (.trap s.cfg.trapPutsp) s = .next t ∧
      t.output = s.output ++ (List.range n).flatMap (fun k =>
        let c := peek (s.reg .r0 + BitVec.ofNat 16 k) s
        if highByte c = 0 then [lowByte c] else [lowByte c, highByte c]) ∧
      PrintFrame s t

/-- R94, R96 and R109 (the spec's decision D14): PUTS hangs exactly when no address reads 0x0000, and
PUTSP exactly when no address reads a zero low byte. -/
def Obligations.StringServicesHangExactlyWithoutTerminator : Prop :=
  ∀ s : State, s.cfg.wf = true →
    (exec (.trap s.cfg.trapPuts) s = .fault .stringHang ↔ ∀ a, peek a s ≠ 0) ∧
    (exec (.trap s.cfg.trapPutsp) s = .fault .stringHang ↔ ∀ a, lowByte (peek a s) ≠ 0)

/-- R97: HALT writes the notice and ends the run normally; registers, cond, memory, keyboard and pc
stay. The notice's text is a parameter (D16). -/
def Obligations.HaltWritesTheNoticeAndStops : Prop :=
  ∀ s : State, s.cfg.wf = true → ∃ t, exec (.trap s.cfg.trapHalt) s = .next t ∧
    t.output = s.output ++ s.cfg.haltNotice ∧ t.runState = .halted ∧ t.haltReason = some .haltTrap ∧
    SameRegs s t ∧ t.cond = s.cond ∧ t.pc = s.pc ∧ SameKeyboard s t ∧ SameCells s t ∧
    t.faultInfo = s.faultInfo ∧ t.fetched = s.fetched ∧ t.abort = s.abort ∧ t.cfg = s.cfg

/-- R98, R99 and R101: RTI and RES take the fatal error UnsupportedOpcode, and a TRAP whose vector is
none of the six takes UnsupportedTrap, with the fetched word and its address (the spec's decision
D17); nothing else changes. -/
def Obligations.FatalErrorsRecordTheFetchedWord : Prop :=
  ∀ s : State,
    (∀ i : Instr, i = .rti ∨ i = .res →
      exec i s = .next { s with
        runState := .halted, haltReason := some .unsupportedOpcode, faultInfo := some s.fetched }) ∧
    (∀ v : BitVec 8, v ∉ s.cfg.vectors →
      exec (.trap v) s = .next { s with
        runState := .halted, haltReason := some .unsupportedTrap, faultInfo := some s.fetched })

/-! ### The step -/

/-- R73 and R74: a running core that nobody asked to stop reads the word at pc through MemRead,
increments pc modulo 2^16, and executes the decoded instruction; from a storage address the fetch
changes nothing else. -/
def Obligations.StepRunsTheDecodedInstruction : Prop :=
  ∀ s : State, s.runState = .running → s.abort = false →
    (let r := memRead s.pc s
     step s = exec (decode r.1) { r.2 with pc := s.pc + 1, fetched := ⟨r.1, s.pc⟩ }) ∧
    (target s.cfg s.pc = .storage → ∀ i, decode (s.cell s.pc) = i →
      step s = exec i { s with pc := s.pc + 1, fetched := ⟨s.cell s.pc, s.pc⟩ }) ∧
    (s.pc + 1).toNat = (s.pc.toNat + 1) % 65536

/-- R73 (the spec's decision D30): a step of a Halted core changes no state. R108 and P7: a running core
the host has asked to stop is cut off. -/
def Obligations.HaltedCoreKeepsItsStateAndAbortCutsOff : Prop :=
  ∀ s : State,
    (s.runState = .halted → step s = .next s) ∧
    (s.runState = .running → s.abort = true → step s = .refused .hostAbort)

/-- R101 and R102: an RTI or RES word at a storage address halts the core with UnsupportedOpcode, that
word and that address, pc incremented and nothing else changed; likewise a TRAP word with an unknown
vector and UnsupportedTrap (the spec's decisions D1, D17). The instruction register's value after the
step is left free (R27, D19; log entry 3). -/
def Obligations.FatalErrorsArePrecise : Prop :=
  ∀ s : State, s.runState = .running → s.abort = false → target s.cfg s.pc = .storage →
    let w := s.cell s.pc
    (w.extractLsb' 12 4 = 0x8 ∨ w.extractLsb' 12 4 = 0xD →
      ∃ ir, step s = .next { s with
        pc := s.pc + 1, fetched := ir, runState := .halted,
        haltReason := some .unsupportedOpcode, faultInfo := some ⟨w, s.pc⟩ }) ∧
    (w.extractLsb' 12 4 = 0xF → w.extractLsb' 0 8 ∉ s.cfg.vectors →
      ∃ ir, step s = .next { s with
        pc := s.pc + 1, fetched := ir, runState := .halted,
        haltReason := some .unsupportedTrap, faultInfo := some ⟨w, s.pc⟩ })

/-- R46 and R121: what a store puts at the next instruction's address is what the next step decodes. -/
def Obligations.StoreIsSeenByTheNextFetch : Prop :=
  ∀ (s : State) (sr : Reg), s.runState = .running → s.abort = false →
    target s.cfg s.pc = .storage → target s.cfg (s.pc + 1) = .storage → decode (s.cell s.pc) = .st sr 0 →
    ∃ t, step s = .next t ∧ step t = exec (decode (s.reg sr)) (fetch t).2 ∧ (fetch t).1 = s.reg sr

/-- R46, R74 with R33: a fetch at KBSR_ADDR polls (only while no key is latched: the spec's decision D9).
A latched key stays as it is; else the console's key is latched and taken from it; in both cases the
word is 0x8000, an RTI (D1), and the core halts with that word and address (R99, R101, D17). With no
key the word is 0x0000, a BR that is never taken (R76), and only pc moves. Nothing else changes. The
list of the console's answers is the model's form (log entry 4), and the instruction register's value
after the step is left free (R27, D19; log entry 3). -/
def Obligations.FetchFromKbsrPolls : Prop :=
  ∀ s : State, s.runState = .running → s.abort = false → s.pc = s.cfg.kbsrAddr →
    (s.kbReady = true →
      ∃ ir, step s = .next { s with
        pc := s.pc + 1, fetched := ir, runState := .halted,
        haltReason := some .unsupportedOpcode, faultInfo := some ⟨0x8000, s.cfg.kbsrAddr⟩ }) ∧
    (∀ k rest, s.kbReady = false → s.input = some k :: rest →
      ∃ ir, step s = .next { s with
        kbReady := true, kbData := zext k, input := rest,
        pc := s.pc + 1, fetched := ir, runState := .halted,
        haltReason := some .unsupportedOpcode, faultInfo := some ⟨0x8000, s.cfg.kbsrAddr⟩ }) ∧
    (∀ rest, s.kbReady = false → s.input = none :: rest →
      ∃ ir, step s = .next { s with input := rest, pc := s.pc + 1, fetched := ir }) ∧
    (s.kbReady = false → s.input = [] →
      ∃ ir, step s = .next { s with pc := s.pc + 1, fetched := ir })

/-! ### Whole-machine rules -/

/-- R16: an instruction changes a register only where it is the DR of ADD, AND, NOT, LD, LDI, LDR or
LEA, R7 for JSR and JSRR, or R0 for GETC and IN. -/
def Obligations.RegistersChangeOnlyWhereTheSpecSays : Prop :=
  ∀ (i : Instr) (s t : State) (r : Reg), exec i s = .next t → t.reg r ≠ s.reg r →
    destOf i = some r ∨
    (r = .r7 ∧ ((∃ off, i = .jsr off) ∨ ∃ base, i = .jsrr base)) ∨
    (r = .r0 ∧ (i = .trap s.cfg.trapGetc ∨ i = .trap s.cfg.trapIn))

/-- R20 (with the spec's decision D7): cond changes only in ADD, AND, NOT, LD, LDI, LDR, LEA, GETC and
IN. -/
def Obligations.CondChangesOnlyWhereTheSpecSays : Prop :=
  ∀ (i : Instr) (s t : State), exec i s = .next t → t.cond ≠ s.cond →
    (∃ dr, destOf i = some dr) ∨ i = .trap s.cfg.trapGetc ∨ i = .trap s.cfg.trapIn

/-- R75 (TRAP by the spec's decision D6): only BR, JMP, JSR and JSRR move pc from the word after the
instruction. -/
def Obligations.PcMovesOnlyInControlTransfers : Prop :=
  ∀ (i : Instr) (s t : State), exec i s = .next t → t.pc ≠ s.pc →
    (∃ n z p o, i = .br n z p o) ∨ (∃ b, i = .jmp b) ∨ (∃ o, i = .jsr o) ∨ ∃ b, i = .jsrr b

/-- R26 and R100: a step enters Halted only by HALT, with HaltTrap, or by one of the two fatal errors,
with its reason and the fetched word and address (the spec's decision D17). -/
def Obligations.HaltedIsEnteredOnlyByHaltOrFatalError : Prop :=
  ∀ s t : State, s.runState = .running → step s = .next t → t.runState = .halted →
    (decode (fetch s).1 = .trap s.cfg.trapHalt ∧ t.haltReason = some .haltTrap ∧ t.faultInfo = s.faultInfo) ∨
    ((decode (fetch s).1 = .rti ∨ decode (fetch s).1 = .res) ∧
      t.haltReason = some .unsupportedOpcode ∧ t.faultInfo = some ⟨(fetch s).1, s.pc⟩) ∨
    (∃ v, decode (fetch s).1 = .trap v ∧ v ∉ s.cfg.vectors ∧
      t.haltReason = some .unsupportedTrap ∧ t.faultInfo = some ⟨(fetch s).1, s.pc⟩)

/-- R109 and R124 (the spec's decisions D13, D14, D20): a step stops only as a hold in GETC or IN, as a
hang in PUTS or PUTSP, or because the host asked for it; no other instruction stops. -/
def Obligations.StepStopsOnlyAsHoldHangOrAbort : Prop :=
  ∀ s : State,
    (∀ f, step s = .fault f →
      s.runState = .running ∧ s.abort = false ∧ ∃ v, decode (fetch s).1 = .trap v ∧
        ((v = s.cfg.trapGetc ∧ f = .keyWaitHold []) ∨ (v = s.cfg.trapIn ∧ f = .keyWaitHold s.cfg.inPrompt) ∨
         ((v = s.cfg.trapPuts ∨ v = s.cfg.trapPutsp) ∧ f = .stringHang))) ∧
    (∀ r, step s = .refused r → s.runState = .running ∧ s.abort = true ∧ r = .hostAbort)

/-- R28, R112 (the spec's decision D31): console output only grows, and only in OUT, PUTS, IN, PUTSP and
HALT. -/
def Obligations.OutputGrowsOnlyInTheConsoleServices : Prop :=
  ∀ s t : State, step s = .next t → ∃ bs, t.output = s.output ++ bs ∧
    (bs ≠ [] → ∃ v ∈ [s.cfg.trapOut, s.cfg.trapPuts, s.cfg.trapIn, s.cfg.trapPutsp, s.cfg.trapHalt],
      decode (fetch s).1 = .trap v)

/-- A step takes the console's answers from the front, in order, and changes neither the parameters nor
the host's request. The list of answers and the abort field are the model's own form of R8's console
and host control (log entries 4 and 5, DESIGN CHOICE), and so is holding the parameters in the state
(log entry 2); R28 says the parameters are fixed, and R44 orders the console operations (the spec's
decision D21). -/
def Obligations.ConsoleAnswersAreTakenInOrder : Prop :=
  ∀ s t : State, step s = .next t →
    (∃ taken, s.input = taken ++ t.input) ∧ t.cfg = s.cfg ∧ t.abort = s.abort

/-- The model's invariant (Safety.lean): canonical memory, KBDR[15:8] zero (R23, the spec's decision
D11), halt_reason and fault_info in step with run_state (R26); every step keeps it. -/
def Obligations.StepKeepsTheInvariant : Prop :=
  ∀ s t : State, s.Inv → step s = .next t → t.Inv

/-- The reset state meets the invariant. -/
def Obligations.ResetMeetsTheInvariant : Prop := State.reset.Inv

/-- R25 (the spec's decision D26): the storage cells behind the two keyboard addresses are unreachable:
two machines that differ in nothing but those cells answer every step alike and still differ in
nothing else. -/
def Obligations.CellsBehindTheKeyboardAreUnreachable : Prop :=
  ∀ s t : State, SameToPrograms s t → ResultsAgree (step s) (step t)

/-- R27 (the spec's decision D19): the instruction register's content between steps is unobservable: a
running core's step does not depend on it. -/
def Obligations.StepDoesNotReadTheOldInstructionRegister : Prop :=
  ∀ (s : State) (x : FaultInfo), s.runState = .running → step { s with fetched := x } = step s

/-! ### Reset and the loader -/

/-- R116: the reset values, those of run_state, halt_reason, fault_info and output being the spec's
decision D18; every storage cell is 0x0000; a Halted or faulty core is not among them. -/
def Obligations.ResetValues : Prop :=
  let s := State.reset
  (∀ r, s.reg r = 0) ∧ s.pc = 0x3000 ∧ s.cond = .z ∧ s.kbReady = false ∧ s.kbData = 0 ∧
  (∀ a, s.cell a = 0) ∧ s.runState = .running ∧ s.haltReason = none ∧ s.faultInfo = none ∧ s.output = []

/-- R117: whatever the images' origins, pc = 0x3000. The loaded machine is the reset machine of R116 with
other storage: the loader writes storage only, so the keyboard cells stay as at reset (R38 with the
spec's decision D26). The model's own fields stay too (log entries 2 to 5). -/
def Obligations.BootStartsAt3000WhateverTheOrigins : Prop :=
  ∀ (files : List (List Byte)) (s : State), boot files = .ok s →
    s.pc = 0x3000 ∧ s = { State.reset with mem := s.mem }

/-- R38 (the spec's decisions D27, D28): an image's words go to consecutive addresses from its origin on
and nowhere else, an image that would pass 0xFFFF, a file with no origin and a file with an odd
number of bytes are load errors; the memory keeps its canonical form. -/
def Obligations.ImageWordsGoToConsecutiveAddresses : Prop :=
  (∀ (m : Memory) (o : Word) (ws : List Word), o.toNat + ws.length ≤ 65536 →
    ∃ m', loadImage m (imageFile o ws) = .ok m' ∧
      (∀ (k : Nat) (h : k < ws.length), m'.read (o.toNat + k) = ws[k]) ∧
      (∀ a, a < o.toNat ∨ o.toNat + ws.length ≤ a → m'.read a = m.read a) ∧
      (m.wf = true → m'.wf = true)) ∧
  (∀ (m : Memory) (o : Word) (ws : List Word), 65536 < o.toNat + ws.length →
    loadImage m (imageFile o ws) = .error .tooLong) ∧
  (∀ (m : Memory) (file : List Byte), file.length < 2 → loadImage m file = .error .noOrigin) ∧
  (∀ (m : Memory) (file : List Byte), 2 ≤ file.length → file.length % 2 = 1 →
    loadImage m file = .error .oddLength)

/-- R118: images load in order, and a later image's words take precedence where it overlaps earlier
ones. -/
def Obligations.LaterImagesTakePrecedence : Prop :=
  ∀ (m m' : Memory) (files : List (List Byte)) (o : Word) (ws : List Word),
    loadImages m (files ++ [imageFile o ws]) = .ok m' →
    ∃ m₁, loadImages m files = .ok m₁ ∧
      (∀ (k : Nat) (h : k < ws.length), m'.read (o.toNat + k) = ws[k]) ∧
      (∀ a, a < o.toNat ∨ o.toNat + ws.length ≤ a → m'.read a = m₁.read a)
end

