-- ==== Sys2Proof/Laws/Encoding.lean ====
section
/-! SUPPORT. Lemmas of the field helpers: register fields, opcodes and sign extension. -/

namespace Sys2Proof

@[simp] theorem Reg.ofBits_toBits (r : Reg) : Reg.ofBits r.toBits = r := by cases r <;> decide

@[simp] theorem Reg.toBits_ofBits (b : BitVec 3) : (Reg.ofBits b).toBits = b := by
  revert b; decide

@[simp] theorem Opcode.ofBits_bits (o : Opcode) : Opcode.ofBits o.bits = o := by cases o <;> decide

@[simp] theorem Opcode.bits_ofBits (b : BitVec 4) : (Opcode.ofBits b).bits = b := by
  revert b; decide

/-- The bits of a placed field. -/
theorem getLsbD_place {n : Nat} (lo : Nat) (b : BitVec n) (j : Nat) :
    (place lo b).getLsbD j = (decide (j < 16) && (!decide (j < lo) && b.getLsbD (j - lo))) := by
  unfold place
  rw [BitVec.getLsbD_shiftLeft, BitVec.getLsbD_setWidth]
  by_cases h : j < 16
  · have : j - lo < 16 := by omega
    simp [h, this]
  · simp [h]

theorem sext_eq_signExtend {n : Nat} (hn : 0 < n) (hn' : n ≤ 16) (v : BitVec n) :
    sext v = v.signExtend 16 := by
  apply BitVec.eq_of_getLsbD_eq
  intro j hj
  unfold sext
  rw [BitVec.getLsbD_signExtend, BitVec.msb_eq_getLsbD_last]
  by_cases hs : v.getLsbD (n - 1) = true
  · by_cases hjn : j < n
    · simp [hs, hj, hjn]
    · have hones : (65535#16).getLsbD (j - n) = true := by
        have : (65535#16) = BitVec.allOnes 16 := by decide
        rw [this]
        simp only [BitVec.getLsbD_allOnes, decide_eq_true_eq]
        omega
      simp [hs, hj, hjn, hones]
  · by_cases hjn : j < n
    · simp [hs, hj, hjn]
    · have : v.getLsbD j = false := BitVec.getLsbD_of_ge v j (by omega)
      simp [hs, hj, hjn, this]

/-- Sign extension keeps the signed value. -/
theorem sext_toInt {n : Nat} (hn : 0 < n) (hn' : n ≤ 16) (v : BitVec n) :
    (sext v).toInt = v.toInt := by
  rw [sext_eq_signExtend hn hn']
  exact BitVec.toInt_signExtend_of_le hn'

/-- A word in an n-bit field's signed range is the extension of its low n bits. -/
theorem sext_extract {n : Nat} (hn : 0 < n) (hn' : n ≤ 16) {v : Word} (h : fitsSigned n v = true) :
    sext (v.extractLsb' 0 n) = v := by
  apply BitVec.eq_of_toInt_eq
  rw [sext_toInt hn hn']
  simp only [fitsSigned, Bool.and_eq_true, decide_eq_true_eq] at h
  have : v.extractLsb' 0 n = v.setWidth n := by
    apply BitVec.eq_of_getLsbD_eq; intro j hj; simp [hj]
  rw [this, BitVec.toInt_setWidth]
  have hpow : (2 ^ n : Nat) = 2 ^ (n - 1) * 2 := by rw [← Nat.pow_succ]; congr 1; omega
  have hcong : Int.bmod (v.toNat : Int) (2 ^ n) = Int.bmod v.toInt (2 ^ n) := by
    rw [BitVec.toInt_eq_toNat_bmod]
    have hd : (2 ^ n : Nat) ∣ 2 ^ 16 := Nat.pow_dvd_pow 2 hn'
    exact (Int.bmod_bmod_of_dvd hd).symm
  rw [hcong]
  have hc : ((2 ^ (n - 1) : Nat) : Int) = (2 ^ (n - 1) : Int) := by norm_cast
  apply Int.bmod_eq_of_le <;> omega

/-- An extended field is in its range. -/
theorem fitsSigned_sext {n : Nat} (hn : 0 < n) (hn' : n ≤ 16) (v : BitVec n) :
    fitsSigned n (sext v) = true := by
  simp only [fitsSigned, sext_toInt hn hn', Bool.and_eq_true, decide_eq_true_eq]
  exact ⟨BitVec.le_toInt v, BitVec.toInt_lt⟩

end Sys2Proof
end

