-- ==== Sys2Proof/Laws/State.lean ====
section
/-! SUPPORT. One lemma per field per update of State, each true by rfl. -/

namespace Sys2Proof.Machine

/-! ### setReg -/

@[simp] theorem State.setReg_regs (s : State) (r : Reg) (v : Word) : (s.setReg r v).regs = s.regs.set r v := rfl
@[simp] theorem State.setReg_pc (s : State) (r : Reg) (v : Word) : (s.setReg r v).pc = s.pc := rfl
@[simp] theorem State.setReg_cond (s : State) (r : Reg) (v : Word) : (s.setReg r v).cond = s.cond := rfl
@[simp] theorem State.setReg_kbReady (s : State) (r : Reg) (v : Word) : (s.setReg r v).kbReady = s.kbReady := rfl
@[simp] theorem State.setReg_kbData (s : State) (r : Reg) (v : Word) : (s.setReg r v).kbData = s.kbData := rfl
@[simp] theorem State.setReg_mem (s : State) (r : Reg) (v : Word) : (s.setReg r v).mem = s.mem := rfl
@[simp] theorem State.setReg_runState (s : State) (r : Reg) (v : Word) : (s.setReg r v).runState = s.runState := rfl
@[simp] theorem State.setReg_haltReason (s : State) (r : Reg) (v : Word) : (s.setReg r v).haltReason = s.haltReason := rfl
@[simp] theorem State.setReg_faultInfo (s : State) (r : Reg) (v : Word) : (s.setReg r v).faultInfo = s.faultInfo := rfl
@[simp] theorem State.setReg_output (s : State) (r : Reg) (v : Word) : (s.setReg r v).output = s.output := rfl
@[simp] theorem State.setReg_fetched (s : State) (r : Reg) (v : Word) : (s.setReg r v).fetched = s.fetched := rfl
@[simp] theorem State.setReg_input (s : State) (r : Reg) (v : Word) : (s.setReg r v).input = s.input := rfl
@[simp] theorem State.setReg_abort (s : State) (r : Reg) (v : Word) : (s.setReg r v).abort = s.abort := rfl
@[simp] theorem State.setReg_cfg (s : State) (r : Reg) (v : Word) : (s.setReg r v).cfg = s.cfg := rfl

/-! ### setPc -/

@[simp] theorem State.setPc_regs (s : State) (t : Word) : (s.setPc t).regs = s.regs := rfl
@[simp] theorem State.setPc_pc (s : State) (t : Word) : (s.setPc t).pc = t := rfl
@[simp] theorem State.setPc_cond (s : State) (t : Word) : (s.setPc t).cond = s.cond := rfl
@[simp] theorem State.setPc_kbReady (s : State) (t : Word) : (s.setPc t).kbReady = s.kbReady := rfl
@[simp] theorem State.setPc_kbData (s : State) (t : Word) : (s.setPc t).kbData = s.kbData := rfl
@[simp] theorem State.setPc_mem (s : State) (t : Word) : (s.setPc t).mem = s.mem := rfl
@[simp] theorem State.setPc_runState (s : State) (t : Word) : (s.setPc t).runState = s.runState := rfl
@[simp] theorem State.setPc_haltReason (s : State) (t : Word) : (s.setPc t).haltReason = s.haltReason := rfl
@[simp] theorem State.setPc_faultInfo (s : State) (t : Word) : (s.setPc t).faultInfo = s.faultInfo := rfl
@[simp] theorem State.setPc_output (s : State) (t : Word) : (s.setPc t).output = s.output := rfl
@[simp] theorem State.setPc_fetched (s : State) (t : Word) : (s.setPc t).fetched = s.fetched := rfl
@[simp] theorem State.setPc_input (s : State) (t : Word) : (s.setPc t).input = s.input := rfl
@[simp] theorem State.setPc_abort (s : State) (t : Word) : (s.setPc t).abort = s.abort := rfl
@[simp] theorem State.setPc_cfg (s : State) (t : Word) : (s.setPc t).cfg = s.cfg := rfl

/-! ### emit -/

@[simp] theorem State.emit_regs (s : State) (bs : List Byte) : (s.emit bs).regs = s.regs := rfl
@[simp] theorem State.emit_pc (s : State) (bs : List Byte) : (s.emit bs).pc = s.pc := rfl
@[simp] theorem State.emit_cond (s : State) (bs : List Byte) : (s.emit bs).cond = s.cond := rfl
@[simp] theorem State.emit_kbReady (s : State) (bs : List Byte) : (s.emit bs).kbReady = s.kbReady := rfl
@[simp] theorem State.emit_kbData (s : State) (bs : List Byte) : (s.emit bs).kbData = s.kbData := rfl
@[simp] theorem State.emit_mem (s : State) (bs : List Byte) : (s.emit bs).mem = s.mem := rfl
@[simp] theorem State.emit_runState (s : State) (bs : List Byte) : (s.emit bs).runState = s.runState := rfl
@[simp] theorem State.emit_haltReason (s : State) (bs : List Byte) : (s.emit bs).haltReason = s.haltReason := rfl
@[simp] theorem State.emit_faultInfo (s : State) (bs : List Byte) : (s.emit bs).faultInfo = s.faultInfo := rfl
@[simp] theorem State.emit_output (s : State) (bs : List Byte) : (s.emit bs).output = s.output ++ bs := rfl
@[simp] theorem State.emit_fetched (s : State) (bs : List Byte) : (s.emit bs).fetched = s.fetched := rfl
@[simp] theorem State.emit_input (s : State) (bs : List Byte) : (s.emit bs).input = s.input := rfl
@[simp] theorem State.emit_abort (s : State) (bs : List Byte) : (s.emit bs).abort = s.abort := rfl
@[simp] theorem State.emit_cfg (s : State) (bs : List Byte) : (s.emit bs).cfg = s.cfg := rfl

/-! ### setCell -/

@[simp] theorem State.setCell_regs (s : State) (a v : Word) : (s.setCell a v).regs = s.regs := rfl
@[simp] theorem State.setCell_pc (s : State) (a v : Word) : (s.setCell a v).pc = s.pc := rfl
@[simp] theorem State.setCell_cond (s : State) (a v : Word) : (s.setCell a v).cond = s.cond := rfl
@[simp] theorem State.setCell_kbReady (s : State) (a v : Word) : (s.setCell a v).kbReady = s.kbReady := rfl
@[simp] theorem State.setCell_kbData (s : State) (a v : Word) : (s.setCell a v).kbData = s.kbData := rfl
@[simp] theorem State.setCell_mem (s : State) (a v : Word) : (s.setCell a v).mem = s.mem.write a.toNat v := rfl
@[simp] theorem State.setCell_runState (s : State) (a v : Word) : (s.setCell a v).runState = s.runState := rfl
@[simp] theorem State.setCell_haltReason (s : State) (a v : Word) : (s.setCell a v).haltReason = s.haltReason := rfl
@[simp] theorem State.setCell_faultInfo (s : State) (a v : Word) : (s.setCell a v).faultInfo = s.faultInfo := rfl
@[simp] theorem State.setCell_output (s : State) (a v : Word) : (s.setCell a v).output = s.output := rfl
@[simp] theorem State.setCell_fetched (s : State) (a v : Word) : (s.setCell a v).fetched = s.fetched := rfl
@[simp] theorem State.setCell_input (s : State) (a v : Word) : (s.setCell a v).input = s.input := rfl
@[simp] theorem State.setCell_abort (s : State) (a v : Word) : (s.setCell a v).abort = s.abort := rfl
@[simp] theorem State.setCell_cfg (s : State) (a v : Word) : (s.setCell a v).cfg = s.cfg := rfl

/-! ### setcc -/

@[simp] theorem State.setcc_regs (s : State) (v : Word) : (s.setcc v).regs = s.regs := rfl
@[simp] theorem State.setcc_pc (s : State) (v : Word) : (s.setcc v).pc = s.pc := rfl
@[simp] theorem State.setcc_cond (s : State) (v : Word) : (s.setcc v).cond = Cond.ofValue v := rfl
@[simp] theorem State.setcc_kbReady (s : State) (v : Word) : (s.setcc v).kbReady = s.kbReady := rfl
@[simp] theorem State.setcc_kbData (s : State) (v : Word) : (s.setcc v).kbData = s.kbData := rfl
@[simp] theorem State.setcc_mem (s : State) (v : Word) : (s.setcc v).mem = s.mem := rfl
@[simp] theorem State.setcc_runState (s : State) (v : Word) : (s.setcc v).runState = s.runState := rfl
@[simp] theorem State.setcc_haltReason (s : State) (v : Word) : (s.setcc v).haltReason = s.haltReason := rfl
@[simp] theorem State.setcc_faultInfo (s : State) (v : Word) : (s.setcc v).faultInfo = s.faultInfo := rfl
@[simp] theorem State.setcc_output (s : State) (v : Word) : (s.setcc v).output = s.output := rfl
@[simp] theorem State.setcc_fetched (s : State) (v : Word) : (s.setcc v).fetched = s.fetched := rfl
@[simp] theorem State.setcc_input (s : State) (v : Word) : (s.setcc v).input = s.input := rfl
@[simp] theorem State.setcc_abort (s : State) (v : Word) : (s.setcc v).abort = s.abort := rfl
@[simp] theorem State.setcc_cfg (s : State) (v : Word) : (s.setcc v).cfg = s.cfg := rfl

/-! ### writeDest -/

@[simp] theorem State.writeDest_regs (s : State) (dr : Reg) (v : Word) : (s.writeDest dr v).regs = s.regs.set dr v := rfl
@[simp] theorem State.writeDest_pc (s : State) (dr : Reg) (v : Word) : (s.writeDest dr v).pc = s.pc := rfl
@[simp] theorem State.writeDest_cond (s : State) (dr : Reg) (v : Word) : (s.writeDest dr v).cond = Cond.ofValue v := rfl
@[simp] theorem State.writeDest_kbReady (s : State) (dr : Reg) (v : Word) : (s.writeDest dr v).kbReady = s.kbReady := rfl
@[simp] theorem State.writeDest_kbData (s : State) (dr : Reg) (v : Word) : (s.writeDest dr v).kbData = s.kbData := rfl
@[simp] theorem State.writeDest_mem (s : State) (dr : Reg) (v : Word) : (s.writeDest dr v).mem = s.mem := rfl
@[simp] theorem State.writeDest_runState (s : State) (dr : Reg) (v : Word) : (s.writeDest dr v).runState = s.runState := rfl
@[simp] theorem State.writeDest_haltReason (s : State) (dr : Reg) (v : Word) : (s.writeDest dr v).haltReason = s.haltReason := rfl
@[simp] theorem State.writeDest_faultInfo (s : State) (dr : Reg) (v : Word) : (s.writeDest dr v).faultInfo = s.faultInfo := rfl
@[simp] theorem State.writeDest_output (s : State) (dr : Reg) (v : Word) : (s.writeDest dr v).output = s.output := rfl
@[simp] theorem State.writeDest_fetched (s : State) (dr : Reg) (v : Word) : (s.writeDest dr v).fetched = s.fetched := rfl
@[simp] theorem State.writeDest_input (s : State) (dr : Reg) (v : Word) : (s.writeDest dr v).input = s.input := rfl
@[simp] theorem State.writeDest_abort (s : State) (dr : Reg) (v : Word) : (s.writeDest dr v).abort = s.abort := rfl
@[simp] theorem State.writeDest_cfg (s : State) (dr : Reg) (v : Word) : (s.writeDest dr v).cfg = s.cfg := rfl

/-! ### fatal -/

@[simp] theorem State.fatal_regs (s : State) (r : HaltReason) (i : FaultInfo) : (s.fatal r i).regs = s.regs := rfl
@[simp] theorem State.fatal_pc (s : State) (r : HaltReason) (i : FaultInfo) : (s.fatal r i).pc = s.pc := rfl
@[simp] theorem State.fatal_cond (s : State) (r : HaltReason) (i : FaultInfo) : (s.fatal r i).cond = s.cond := rfl
@[simp] theorem State.fatal_kbReady (s : State) (r : HaltReason) (i : FaultInfo) : (s.fatal r i).kbReady = s.kbReady := rfl
@[simp] theorem State.fatal_kbData (s : State) (r : HaltReason) (i : FaultInfo) : (s.fatal r i).kbData = s.kbData := rfl
@[simp] theorem State.fatal_mem (s : State) (r : HaltReason) (i : FaultInfo) : (s.fatal r i).mem = s.mem := rfl
@[simp] theorem State.fatal_runState (s : State) (r : HaltReason) (i : FaultInfo) : (s.fatal r i).runState = .halted := rfl
@[simp] theorem State.fatal_haltReason (s : State) (r : HaltReason) (i : FaultInfo) : (s.fatal r i).haltReason = some r := rfl
@[simp] theorem State.fatal_faultInfo (s : State) (r : HaltReason) (i : FaultInfo) : (s.fatal r i).faultInfo = some i := rfl
@[simp] theorem State.fatal_output (s : State) (r : HaltReason) (i : FaultInfo) : (s.fatal r i).output = s.output := rfl
@[simp] theorem State.fatal_fetched (s : State) (r : HaltReason) (i : FaultInfo) : (s.fatal r i).fetched = s.fetched := rfl
@[simp] theorem State.fatal_input (s : State) (r : HaltReason) (i : FaultInfo) : (s.fatal r i).input = s.input := rfl
@[simp] theorem State.fatal_abort (s : State) (r : HaltReason) (i : FaultInfo) : (s.fatal r i).abort = s.abort := rfl
@[simp] theorem State.fatal_cfg (s : State) (r : HaltReason) (i : FaultInfo) : (s.fatal r i).cfg = s.cfg := rfl

/-! ### halt -/

@[simp] theorem State.halt_regs (s : State) : (s.halt).regs = s.regs := rfl
@[simp] theorem State.halt_pc (s : State) : (s.halt).pc = s.pc := rfl
@[simp] theorem State.halt_cond (s : State) : (s.halt).cond = s.cond := rfl
@[simp] theorem State.halt_kbReady (s : State) : (s.halt).kbReady = s.kbReady := rfl
@[simp] theorem State.halt_kbData (s : State) : (s.halt).kbData = s.kbData := rfl
@[simp] theorem State.halt_mem (s : State) : (s.halt).mem = s.mem := rfl
@[simp] theorem State.halt_runState (s : State) : (s.halt).runState = .halted := rfl
@[simp] theorem State.halt_haltReason (s : State) : (s.halt).haltReason = some .haltTrap := rfl
@[simp] theorem State.halt_faultInfo (s : State) : (s.halt).faultInfo = s.faultInfo := rfl
@[simp] theorem State.halt_output (s : State) : (s.halt).output = s.output := rfl
@[simp] theorem State.halt_fetched (s : State) : (s.halt).fetched = s.fetched := rfl
@[simp] theorem State.halt_input (s : State) : (s.halt).input = s.input := rfl
@[simp] theorem State.halt_abort (s : State) : (s.halt).abort = s.abort := rfl
@[simp] theorem State.halt_cfg (s : State) : (s.halt).cfg = s.cfg := rfl

end Sys2Proof.Machine
end

