-- ==== Sys2Proof/Laws/Memory.lean ====
section
/-! SUPPORT. The laws of the storage list: read after write, the canonical form is kept, and equal
memories are equal lists. -/

namespace Sys2Proof.Machine

theorem Memory.wf_iff {m : Memory} :
    Memory.wf m = true ↔ m.Pairwise (fun c d => c.1 < d.1) ∧ ∀ c ∈ m, c.1 < 65536 ∧ c.2 ≠ 0#16 := by
  simp only [Memory.wf, Bool.and_eq_true, decide_eq_true_eq, List.all_eq_true]

/-- The canonical form of a non-empty list, one cell at a time. -/
theorem Memory.wf_cons {c : Nat × Word} {m : Memory} :
    Memory.wf (c :: m) = true ↔
      (∀ d ∈ m, c.1 < d.1) ∧ c.1 < 65536 ∧ c.2 ≠ 0#16 ∧ Memory.wf m = true := by
  simp only [Memory.wf, List.pairwise_cons, List.all_cons, Bool.and_eq_true, decide_eq_true_eq]
  tauto

@[simp] theorem Memory.wf_nil : Memory.wf [] = true := by decide

@[simp] theorem Memory.read_nil (a : Nat) : Memory.read [] a = 0#16 := rfl

/-- An address below every listed one is unlisted. -/
theorem Memory.read_of_lt {m : Memory} {a : Nat} (h : ∀ d ∈ m, a < d.1) : Memory.read m a = 0#16 := by
  induction m with
  | nil => rfl
  | cons c m ih =>
    have hc := h c (by simp)
    simp only [Memory.read]
    rw [if_neg (by omega)]
    exact ih fun d hd => h d (by simp [hd])

/-- Unlisting an address makes it read as 0x0000 and leaves every other address alone. -/
theorem Memory.read_unlist (m : Memory) (a b : Nat) :
    Memory.read (m.unlist a) b = if b = a then 0#16 else Memory.read m b := by
  induction m with
  | nil => simp [Memory.unlist]
  | cons c m ih =>
    obtain ⟨k, w⟩ := c
    by_cases hka : k = a
    · have hdrop : Memory.unlist ((k, w) :: m) a = Memory.unlist m a := by simp [Memory.unlist, hka]
      rw [hdrop, ih]
      by_cases hb : b = a
      · rw [if_pos hb, if_pos hb]
      · have : ¬ k = b := fun h => hb (by omega)
        simp [Memory.read, hb, this]
    · have hkeep : Memory.unlist ((k, w) :: m) a = (k, w) :: Memory.unlist m a := by
        simp [Memory.unlist, hka]
      rw [hkeep]
      simp only [Memory.read, ih]
      by_cases hkb : k = b
      · have : ¬ b = a := by omega
        simp [hkb, this]
      · simp [hkb]

/-- Listing a cell at an address that reads as 0x0000. -/
theorem Memory.read_enlist (m : Memory) (a b : Nat) (v : Word) (h : ∀ c ∈ m, c.1 ≠ a) :
    Memory.read (m.enlist a v) b = if b = a then v else Memory.read m b := by
  induction m with
  | nil =>
    by_cases hb : b = a
    · simp [Memory.enlist, Memory.read, hb]
    · have : ¬ a = b := fun h => hb h.symm
      simp [Memory.enlist, Memory.read, hb, this]
  | cons c m ih =>
    obtain ⟨k, w⟩ := c
    have hk : k ≠ a := h (k, w) (by simp)
    have ih := ih fun c hc => h c (by simp [hc])
    simp only [Memory.enlist]
    split
    · by_cases hb : b = a
      · simp [Memory.read, hb]
      · have : ¬ a = b := fun h => hb h.symm
        rw [if_neg hb]; conv_lhs => rw [Memory.read, if_neg this]
    · simp only [Memory.read, ih]
      by_cases hkb : k = b
      · have : ¬ b = a := by omega
        simp [hkb, this]
      · simp [hkb]

theorem Memory.mem_unlist {m : Memory} {a : Nat} {c : Nat × Word} :
    c ∈ m.unlist a ↔ c ∈ m ∧ c.1 ≠ a := by simp [Memory.unlist]

/-- Read after write, at every address. -/
theorem Memory.read_write (m : Memory) (a b : Nat) (v : Word) :
    Memory.read (Memory.write m a v) b = if b = a then v else Memory.read m b := by
  unfold Memory.write
  by_cases hv : v = 0#16
  · rw [if_pos hv, Memory.read_unlist, hv]
  · rw [if_neg hv, Memory.read_enlist _ _ _ _ fun c hc => (Memory.mem_unlist.mp hc).2,
      Memory.read_unlist]
    by_cases hb : b = a <;> simp [hb]

theorem Memory.unlist_wf {m : Memory} (hm : Memory.wf m = true) (a : Nat) :
    Memory.wf (m.unlist a) = true := by
  obtain ⟨hsorted, hcells⟩ := Memory.wf_iff.mp hm
  exact Memory.wf_iff.mpr ⟨hsorted.filter _, fun c hc => hcells c (Memory.mem_unlist.mp hc).1⟩

/-- The cells of a list with one put in. -/
theorem Memory.mem_enlist {m : Memory} {a : Nat} {v : Word} {c : Nat × Word}
    (h : c ∈ m.enlist a v) : c = (a, v) ∨ c ∈ m := by
  induction m with
  | nil => exact .inl (by simpa [Memory.enlist] using h)
  | cons d m ih =>
    obtain ⟨k, w⟩ := d
    simp only [Memory.enlist] at h
    split at h
    · exact List.mem_cons.mp h
    · rcases List.mem_cons.mp h with rfl | h
      · exact .inr (by simp)
      · exact (ih h).imp_right fun h => by simp [h]

theorem Memory.enlist_wf {m : Memory} (hm : Memory.wf m = true) {a : Nat} (ha : a < 65536)
    {v : Word} (hv : v ≠ 0#16) (hnot : ∀ c ∈ m, c.1 ≠ a) : Memory.wf (m.enlist a v) = true := by
  induction m with
  | nil => exact Memory.wf_cons.mpr ⟨by simp, ha, hv, Memory.wf_nil⟩
  | cons c m ih =>
    obtain ⟨k, w⟩ := c
    obtain ⟨hlt, hk, hw, hwf⟩ := Memory.wf_cons.mp hm
    have hka : k ≠ a := hnot (k, w) (by simp)
    simp only at hlt hk hw
    simp only [Memory.enlist]
    split
    · rename_i hak
      refine Memory.wf_cons.mpr ⟨?_, ha, hv, hm⟩
      intro d hd
      rcases List.mem_cons.mp hd with rfl | hd
      · exact hak
      · exact Nat.lt_trans hak (hlt d hd)
    · refine Memory.wf_cons.mpr ⟨?_, hk, hw, ih hwf fun c hc => hnot c (by simp [hc])⟩
      intro d hd
      rcases Memory.mem_enlist hd with rfl | hd
      · simp only; omega
      · exact hlt d hd

/-- A write keeps the canonical form. -/
theorem Memory.write_wf {m : Memory} (hm : Memory.wf m = true) {a : Nat} (ha : a < 65536) (v : Word) :
    Memory.wf (Memory.write m a v) = true := by
  unfold Memory.write
  split
  · exact Memory.unlist_wf hm a
  · rename_i hv
    exact Memory.enlist_wf (Memory.unlist_wf hm a) ha hv fun c hc => (Memory.mem_unlist.mp hc).2

/-- Two memories in canonical form that read alike are the same list. -/
theorem Memory.ext_read {m n : Memory} (hm : Memory.wf m = true) (hn : Memory.wf n = true)
    (h : ∀ a, Memory.read m a = Memory.read n a) : m = n := by
  induction m generalizing n with
  | nil =>
    cases n with
    | nil => rfl
    | cons d n =>
      obtain ⟨-, -, hd, -⟩ := Memory.wf_cons.mp hn
      have := h d.1
      simp [Memory.read] at this
      exact absurd this.symm hd
  | cons c m ih =>
    obtain ⟨hcl, -, hc0, hmwf⟩ := Memory.wf_cons.mp hm
    cases n with
    | nil =>
      have := h c.1
      simp [Memory.read] at this
      exact absurd this hc0
    | cons d n =>
      obtain ⟨hdl, -, hd0, hnwf⟩ := Memory.wf_cons.mp hn
      have hc := h c.1
      have hd := h d.1
      have hkey : c.1 = d.1 := by
        rcases Nat.lt_trichotomy c.1 d.1 with hlt | heq | hlt
        · have hz : Memory.read (d :: n) c.1 = 0 := Memory.read_of_lt fun e he => by
            rcases List.mem_cons.mp he with rfl | he
            · exact hlt
            · exact Nat.lt_trans hlt (hdl e he)
          rw [hz] at hc
          simp [Memory.read] at hc
          exact absurd hc hc0
        · exact heq
        · have hz : Memory.read (c :: m) d.1 = 0 := Memory.read_of_lt fun e he => by
            rcases List.mem_cons.mp he with rfl | he
            · exact hlt
            · exact Nat.lt_trans hlt (hcl e he)
          rw [hz] at hd
          simp [Memory.read] at hd
          exact absurd hd.symm hd0
      obtain ⟨k, v⟩ := c
      obtain ⟨l, w⟩ := d
      simp only at hkey
      subst hkey
      have hval : v = w := by simpa [Memory.read] using hc
      subst hval
      congr 1
      apply ih hmwf hnwf
      intro a
      by_cases hka : k = a
      · subst hka
        rw [Memory.read_of_lt (m := m) hcl, Memory.read_of_lt (m := n) hdl]
      · have := h a
        simpa [Memory.read, hka] using this

@[simp] theorem State.cell_setReg (s : State) (r : Reg) (v a : Word) : (s.setReg r v).cell a = s.cell a := rfl

@[simp] theorem State.cell_setPc (s : State) (t a : Word) : (s.setPc t).cell a = s.cell a := rfl

@[simp] theorem State.cell_emit (s : State) (bs : List Byte) (a : Word) : (s.emit bs).cell a = s.cell a := rfl

@[simp] theorem State.cell_setcc (s : State) (v a : Word) : (s.setcc v).cell a = s.cell a := rfl

@[simp] theorem State.cell_writeDest (s : State) (r : Reg) (v a : Word) :
    (s.writeDest r v).cell a = s.cell a := rfl

@[simp] theorem State.cell_fatal (s : State) (r : HaltReason) (i : FaultInfo) (a : Word) :
    (s.fatal r i).cell a = s.cell a := rfl

@[simp] theorem State.cell_halt (s : State) (a : Word) : s.halt.cell a = s.cell a := rfl

/-- Storage holds what was stored, and nothing else changed. -/
@[simp] theorem State.cell_setCell (s : State) (a b v : Word) :
    (s.setCell a v).cell b = if b = a then v else s.cell b := by
  have h : b = a ↔ b.toNat = a.toNat := BitVec.toNat_inj.symm
  simp [State.cell, State.setCell, Memory.read_write, h]

theorem State.setCell_wf {s : State} (hs : s.mem.wf = true) (a v : Word) :
    (s.setCell a v).mem.wf = true := Memory.write_wf hs a.isLt v

end Sys2Proof.Machine
end

