-- ==== Sys2Proof/Laws/Registers.lean ====
section
/-! SUPPORT. Lemmas of the register file and of the operations that write a register. -/

namespace Sys2Proof.Machine

theorem RegFile.get_set (f : RegFile) (r q : Reg) (v : Word) :
    (f.set r v).get q = if q = r then v else f.get q := by
  cases r <;> cases q <;> rfl

@[simp] theorem RegFile.get_set_same (f : RegFile) (r : Reg) (v : Word) : (f.set r v).get r = v := by
  simp [RegFile.get_set]

theorem RegFile.get_set_ne (f : RegFile) {r q : Reg} (v : Word) (h : q ≠ r) :
    (f.set r v).get q = f.get q := by
  simp [RegFile.get_set, h]

/-- Two register files with the same eight words are the same. -/
theorem RegFile.ext_get {f g : RegFile} (h : ∀ r, f.get r = g.get r) : f = g := by
  cases f; cases g
  simp only [RegFile.mk.injEq]
  exact ⟨h .r0, h .r1, h .r2, h .r3, h .r4, h .r5, h .r6, h .r7⟩

@[simp] theorem State.reg_setReg (s : State) (r q : Reg) (v : Word) :
    (s.setReg r v).reg q = if q = r then v else s.reg q := RegFile.get_set s.regs r q v

@[simp] theorem State.reg_writeDest (s : State) (r q : Reg) (v : Word) :
    (s.writeDest r v).reg q = if q = r then v else s.reg q := RegFile.get_set s.regs r q v

@[simp] theorem State.reg_setPc (s : State) (t : Word) (q : Reg) : (s.setPc t).reg q = s.reg q := rfl

@[simp] theorem State.reg_emit (s : State) (bs : List Byte) (q : Reg) : (s.emit bs).reg q = s.reg q := rfl

@[simp] theorem State.reg_setCell (s : State) (a v : Word) (q : Reg) :
    (s.setCell a v).reg q = s.reg q := rfl

@[simp] theorem State.reg_setcc (s : State) (v : Word) (q : Reg) : (s.setcc v).reg q = s.reg q := rfl

@[simp] theorem State.reg_fatal (s : State) (r : HaltReason) (i : FaultInfo) (q : Reg) :
    (s.fatal r i).reg q = s.reg q := rfl

@[simp] theorem State.reg_halt (s : State) (q : Reg) : s.halt.reg q = s.reg q := rfl

end Sys2Proof.Machine
end

