-- ==== Sys2Proof/Laws/Ops.lean ====
section
/-! SUPPORT. What each shared operation can do, said once: the poll, MemRead, MemWrite, Peek, GetKey,
fetch and placing an instruction. -/

namespace Sys2Proof.Machine

/-! ### The decoder's targets (R31) -/

theorem target_kbsr (c : Config) : target c c.kbsrAddr = .kbsr := by simp [target]

theorem target_kbdr {c : Config} (h : c.kbsrAddr ≠ c.kbdrAddr) : target c c.kbdrAddr = .kbdr := by
  simp [target, Ne.symm h]

theorem target_eq_storage {c : Config} {a : Word} :
    target c a = .storage ↔ a ≠ c.kbsrAddr ∧ a ≠ c.kbdrAddr := by
  unfold target
  split
  · simp [*]
  · split <;> simp [*]

/-! ### The poll (R33, R34) -/

/-- Everything a poll can do: nothing while a key is latched; else latch the console's key, or take
its "no key". -/
theorem State.pollKey_cases (s : State) :
    (s.kbReady = true ∧ s.pollKey = s) ∨
    (s.kbReady = false ∧ ∃ k rest, s.input = some k :: rest ∧
      s.pollKey = { s with kbData := zext k, kbReady := true, input := rest }) ∨
    (s.kbReady = false ∧ ∃ rest, s.input = none :: rest ∧ s.pollKey = { s with input := rest }) ∨
    (s.kbReady = false ∧ s.input = [] ∧ s.pollKey = s) := by
  unfold State.pollKey
  cases hr : s.kbReady with
  | true => simp
  | false =>
    cases hi : s.input with
    | nil => cases s; simp_all [keyPoll]
    | cons o rest => cases o <;> simp [keyPoll]

@[simp] theorem State.pollKey_regs (s : State) : s.pollKey.regs = s.regs := by
  unfold State.pollKey; split <;> (try split) <;> rfl

@[simp] theorem State.pollKey_pc (s : State) : s.pollKey.pc = s.pc := by
  unfold State.pollKey; split <;> (try split) <;> rfl

@[simp] theorem State.pollKey_cond (s : State) : s.pollKey.cond = s.cond := by
  unfold State.pollKey; split <;> (try split) <;> rfl

@[simp] theorem State.pollKey_mem (s : State) : s.pollKey.mem = s.mem := by
  unfold State.pollKey; split <;> (try split) <;> rfl

@[simp] theorem State.pollKey_runState (s : State) : s.pollKey.runState = s.runState := by
  unfold State.pollKey; split <;> (try split) <;> rfl

@[simp] theorem State.pollKey_haltReason (s : State) : s.pollKey.haltReason = s.haltReason := by
  unfold State.pollKey; split <;> (try split) <;> rfl

@[simp] theorem State.pollKey_faultInfo (s : State) : s.pollKey.faultInfo = s.faultInfo := by
  unfold State.pollKey; split <;> (try split) <;> rfl

@[simp] theorem State.pollKey_output (s : State) : s.pollKey.output = s.output := by
  unfold State.pollKey; split <;> (try split) <;> rfl

@[simp] theorem State.pollKey_fetched (s : State) : s.pollKey.fetched = s.fetched := by
  unfold State.pollKey; split <;> (try split) <;> rfl

@[simp] theorem State.pollKey_abort (s : State) : s.pollKey.abort = s.abort := by
  unfold State.pollKey; split <;> (try split) <;> rfl

@[simp] theorem State.pollKey_cfg (s : State) : s.pollKey.cfg = s.cfg := by
  unfold State.pollKey; split <;> (try split) <;> rfl

@[simp] theorem State.pollKey_reg (s : State) (r : Reg) : s.pollKey.reg r = s.reg r := by
  simp [State.reg]

@[simp] theorem State.pollKey_cell (s : State) (a : Word) : s.pollKey.cell a = s.cell a := by
  simp [State.cell]

/-- A latched key stays (R33, D9). -/
theorem State.pollKey_of_ready {s : State} (h : s.kbReady = true) : s.pollKey = s := by
  simp [State.pollKey, h]

/-! ### MemRead (R32) -/

theorem memRead_storage {s : State} {a : Word} (h : target s.cfg a = .storage) :
    memRead a s = (s.cell a, s) := by simp [memRead, h]

theorem memRead_kbsr {s : State} {a : Word} (h : target s.cfg a = .kbsr) :
    memRead a s = (statusWord s.pollKey.kbReady, s.pollKey) := by simp [memRead, h, kbsrRead]

theorem memRead_kbdr {s : State} {a : Word} (h : target s.cfg a = .kbdr) :
    memRead a s = (s.pollKey.kbData, { s.pollKey with kbReady := false }) := by
  simp [memRead, h, kbdrRead]

/-- Everything MemRead can do to the state. -/
theorem memRead_state_cases (a : Word) (s : State) :
    (target s.cfg a = .storage ∧ (memRead a s).2 = s) ∨
    (target s.cfg a = .kbsr ∧ (memRead a s).2 = s.pollKey) ∨
    (target s.cfg a = .kbdr ∧ (memRead a s).2 = { s.pollKey with kbReady := false }) := by
  cases h : target s.cfg a
  · exact .inl ⟨rfl, by rw [memRead_storage h]⟩
  · exact .inr (.inl ⟨rfl, by rw [memRead_kbsr h]⟩)
  · exact .inr (.inr ⟨rfl, by rw [memRead_kbdr h]⟩)

@[simp] theorem memRead_regs (a : Word) (s : State) : (memRead a s).2.regs = s.regs := by
  rcases memRead_state_cases a s with ⟨-, h⟩ | ⟨-, h⟩ | ⟨-, h⟩ <;> simp [h]

@[simp] theorem memRead_pc (a : Word) (s : State) : (memRead a s).2.pc = s.pc := by
  rcases memRead_state_cases a s with ⟨-, h⟩ | ⟨-, h⟩ | ⟨-, h⟩ <;> simp [h]

@[simp] theorem memRead_cond (a : Word) (s : State) : (memRead a s).2.cond = s.cond := by
  rcases memRead_state_cases a s with ⟨-, h⟩ | ⟨-, h⟩ | ⟨-, h⟩ <;> simp [h]

@[simp] theorem memRead_mem (a : Word) (s : State) : (memRead a s).2.mem = s.mem := by
  rcases memRead_state_cases a s with ⟨-, h⟩ | ⟨-, h⟩ | ⟨-, h⟩ <;> simp [h]

@[simp] theorem memRead_runState (a : Word) (s : State) : (memRead a s).2.runState = s.runState := by
  rcases memRead_state_cases a s with ⟨-, h⟩ | ⟨-, h⟩ | ⟨-, h⟩ <;> simp [h]

@[simp] theorem memRead_haltReason (a : Word) (s : State) : (memRead a s).2.haltReason = s.haltReason := by
  rcases memRead_state_cases a s with ⟨-, h⟩ | ⟨-, h⟩ | ⟨-, h⟩ <;> simp [h]

@[simp] theorem memRead_faultInfo (a : Word) (s : State) : (memRead a s).2.faultInfo = s.faultInfo := by
  rcases memRead_state_cases a s with ⟨-, h⟩ | ⟨-, h⟩ | ⟨-, h⟩ <;> simp [h]

@[simp] theorem memRead_output (a : Word) (s : State) : (memRead a s).2.output = s.output := by
  rcases memRead_state_cases a s with ⟨-, h⟩ | ⟨-, h⟩ | ⟨-, h⟩ <;> simp [h]

@[simp] theorem memRead_fetched (a : Word) (s : State) : (memRead a s).2.fetched = s.fetched := by
  rcases memRead_state_cases a s with ⟨-, h⟩ | ⟨-, h⟩ | ⟨-, h⟩ <;> simp [h]

@[simp] theorem memRead_abort (a : Word) (s : State) : (memRead a s).2.abort = s.abort := by
  rcases memRead_state_cases a s with ⟨-, h⟩ | ⟨-, h⟩ | ⟨-, h⟩ <;> simp [h]

@[simp] theorem memRead_cfg (a : Word) (s : State) : (memRead a s).2.cfg = s.cfg := by
  rcases memRead_state_cases a s with ⟨-, h⟩ | ⟨-, h⟩ | ⟨-, h⟩ <;> simp [h]

@[simp] theorem memRead_reg (a : Word) (s : State) (r : Reg) : (memRead a s).2.reg r = s.reg r := by
  simp [State.reg]

@[simp] theorem memRead_cell (a b : Word) (s : State) : (memRead a s).2.cell b = s.cell b := by
  simp [State.cell]

/-! ### MemWrite (R35) -/

theorem memWrite_storage {s : State} {a : Word} (h : target s.cfg a = .storage) (v : Word) :
    memWrite a v s = s.setCell a v := by simp [memWrite, h]

theorem memWrite_device {s : State} {a : Word} (h : target s.cfg a ≠ .storage) (v : Word) :
    memWrite a v s = s := by
  unfold memWrite; split <;> simp_all

/-- Everything MemWrite can do. -/
theorem memWrite_cases (a v : Word) (s : State) :
    (target s.cfg a = .storage ∧ memWrite a v s = s.setCell a v) ∨
    (target s.cfg a ≠ .storage ∧ memWrite a v s = s) := by
  by_cases h : target s.cfg a = .storage
  · exact .inl ⟨h, memWrite_storage h v⟩
  · exact .inr ⟨h, memWrite_device h v⟩

@[simp] theorem memWrite_regs (a v : Word) (s : State) : (memWrite a v s).regs = s.regs := by
  rcases memWrite_cases a v s with ⟨-, h⟩ | ⟨-, h⟩ <;> simp [h]

@[simp] theorem memWrite_pc (a v : Word) (s : State) : (memWrite a v s).pc = s.pc := by
  rcases memWrite_cases a v s with ⟨-, h⟩ | ⟨-, h⟩ <;> simp [h]

@[simp] theorem memWrite_cond (a v : Word) (s : State) : (memWrite a v s).cond = s.cond := by
  rcases memWrite_cases a v s with ⟨-, h⟩ | ⟨-, h⟩ <;> simp [h]

@[simp] theorem memWrite_kbReady (a v : Word) (s : State) : (memWrite a v s).kbReady = s.kbReady := by
  rcases memWrite_cases a v s with ⟨-, h⟩ | ⟨-, h⟩ <;> simp [h]

@[simp] theorem memWrite_kbData (a v : Word) (s : State) : (memWrite a v s).kbData = s.kbData := by
  rcases memWrite_cases a v s with ⟨-, h⟩ | ⟨-, h⟩ <;> simp [h]

@[simp] theorem memWrite_runState (a v : Word) (s : State) : (memWrite a v s).runState = s.runState := by
  rcases memWrite_cases a v s with ⟨-, h⟩ | ⟨-, h⟩ <;> simp [h]

@[simp] theorem memWrite_haltReason (a v : Word) (s : State) : (memWrite a v s).haltReason = s.haltReason := by
  rcases memWrite_cases a v s with ⟨-, h⟩ | ⟨-, h⟩ <;> simp [h]

@[simp] theorem memWrite_faultInfo (a v : Word) (s : State) : (memWrite a v s).faultInfo = s.faultInfo := by
  rcases memWrite_cases a v s with ⟨-, h⟩ | ⟨-, h⟩ <;> simp [h]

@[simp] theorem memWrite_output (a v : Word) (s : State) : (memWrite a v s).output = s.output := by
  rcases memWrite_cases a v s with ⟨-, h⟩ | ⟨-, h⟩ <;> simp [h]

@[simp] theorem memWrite_fetched (a v : Word) (s : State) : (memWrite a v s).fetched = s.fetched := by
  rcases memWrite_cases a v s with ⟨-, h⟩ | ⟨-, h⟩ <;> simp [h]

@[simp] theorem memWrite_input (a v : Word) (s : State) : (memWrite a v s).input = s.input := by
  rcases memWrite_cases a v s with ⟨-, h⟩ | ⟨-, h⟩ <;> simp [h]

@[simp] theorem memWrite_abort (a v : Word) (s : State) : (memWrite a v s).abort = s.abort := by
  rcases memWrite_cases a v s with ⟨-, h⟩ | ⟨-, h⟩ <;> simp [h]

@[simp] theorem memWrite_cfg (a v : Word) (s : State) : (memWrite a v s).cfg = s.cfg := by
  rcases memWrite_cases a v s with ⟨-, h⟩ | ⟨-, h⟩ <;> simp [h]

@[simp] theorem memWrite_reg (a v : Word) (s : State) (r : Reg) : (memWrite a v s).reg r = s.reg r := by
  simp [State.reg]

/-- The cells after MemWrite: the addressed one, if it is storage, holds the value. -/
theorem memWrite_cell (a v b : Word) (s : State) :
    (memWrite a v s).cell b = if b = a ∧ target s.cfg a = .storage then v else s.cell b := by
  rcases memWrite_cases a v s with ⟨ht, h⟩ | ⟨ht, h⟩ <;> simp [h, ht]

/-! ### The canonical form is kept by every operation on memory -/

theorem memRead_wf {s : State} (h : s.mem.wf = true) (a : Word) : (memRead a s).2.mem.wf = true := by
  simpa using h

theorem memWrite_wf {s : State} (h : s.mem.wf = true) (a v : Word) : (memWrite a v s).mem.wf = true := by
  rcases memWrite_cases a v s with ⟨-, hw⟩ | ⟨-, hw⟩ <;> rw [hw]
  · exact State.setCell_wf h a v
  · exact h

theorem State.reset_mem_wf : State.reset.mem.wf = true := by decide

/-! ### GetKey (R91) -/

/-- KeyWait answers k exactly when k is the first key among the console's answers. -/
theorem keyWait_eq_some {input rest : List (Option Byte)} {k : Byte} :
    keyWait input = some (k, rest) ↔ ∃ m, input = List.replicate m none ++ some k :: rest := by
  induction input with
  | nil => simp [keyWait]
  | cons o input ih =>
    cases o with
    | none =>
      rw [keyWait, ih]
      constructor
      · rintro ⟨m, rfl⟩; exact ⟨m + 1, by simp [List.replicate_succ]⟩
      · rintro ⟨m, h⟩
        cases m with
        | zero => simp at h
        | succ m => exact ⟨m, by simpa [List.replicate_succ] using h⟩
    | some j =>
      rw [keyWait]
      constructor
      · intro h; simp only [Option.some.injEq, Prod.mk.injEq] at h; exact ⟨0, by simp [h]⟩
      · rintro ⟨m, h⟩
        cases m with
        | zero => simpa using h
        | succ m => simp [List.replicate_succ] at h

/-- KeyWait never answers exactly when no key is among the console's answers. -/
theorem keyWait_eq_none {input : List (Option Byte)} :
    keyWait input = none ↔ ∀ o ∈ input, o = none := by
  induction input with
  | nil => simp [keyWait]
  | cons o input ih => cases o <;> simp [keyWait, ih]

/-- Everything GetKey can do. -/
theorem getKey_cases (s : State) :
    (s.kbReady = true ∧ getKey s = some (s.kbData, { s with kbReady := false })) ∨
    (s.kbReady = false ∧ ∃ k rest, keyWait s.input = some (k, rest) ∧
      getKey s = some (zext k, { s with kbData := zext k, input := rest })) ∨
    (s.kbReady = false ∧ keyWait s.input = none ∧ getKey s = none) := by
  unfold getKey
  cases hr : s.kbReady with
  | true => simp
  | false =>
    cases hk : keyWait s.input with
    | none => simp
    | some kr => obtain ⟨k, rest⟩ := kr; simp

/-- What GetKey leaves when it answers: the key's code in the data cell, no key latched, the
console's later answers, and everything else as it was. -/
theorem getKey_some {s t : State} {k : Word} (h : getKey s = some (k, t)) :
    k = t.kbData ∧ t = { s with kbReady := false, kbData := t.kbData, input := t.input } := by
  rcases getKey_cases s with ⟨-, hk⟩ | ⟨hr, j, rest, -, hk⟩ | ⟨-, -, hk⟩ <;> rw [hk] at h
  · simp only [Option.some.injEq, Prod.mk.injEq] at h
    obtain ⟨rfl, rfl⟩ := h
    exact ⟨rfl, rfl⟩
  · simp only [Option.some.injEq, Prod.mk.injEq] at h
    obtain ⟨rfl, rfl⟩ := h
    exact ⟨rfl, by rw [← hr]⟩
  · cases h

/-! ### Fetch (R74) -/

@[simp] theorem fetch_word (s : State) : (fetch s).1 = (memRead s.pc s).1 := rfl

theorem fetch_state (s : State) :
    (fetch s).2 = { (memRead s.pc s).2 with
      pc := s.pc + 1, fetched := ⟨(memRead s.pc s).1, s.pc⟩ } := rfl

@[simp] theorem fetch_pc (s : State) : (fetch s).2.pc = s.pc + 1 := rfl

@[simp] theorem fetch_fetched (s : State) : (fetch s).2.fetched = ⟨(fetch s).1, s.pc⟩ := rfl

@[simp] theorem fetch_regs (s : State) : (fetch s).2.regs = s.regs := memRead_regs s.pc s

@[simp] theorem fetch_cond (s : State) : (fetch s).2.cond = s.cond := memRead_cond s.pc s

@[simp] theorem fetch_mem (s : State) : (fetch s).2.mem = s.mem := memRead_mem s.pc s

@[simp] theorem fetch_runState (s : State) : (fetch s).2.runState = s.runState := memRead_runState s.pc s

@[simp] theorem fetch_haltReason (s : State) : (fetch s).2.haltReason = s.haltReason := memRead_haltReason s.pc s

@[simp] theorem fetch_faultInfo (s : State) : (fetch s).2.faultInfo = s.faultInfo := memRead_faultInfo s.pc s

@[simp] theorem fetch_output (s : State) : (fetch s).2.output = s.output := memRead_output s.pc s

@[simp] theorem fetch_abort (s : State) : (fetch s).2.abort = s.abort := memRead_abort s.pc s

@[simp] theorem fetch_cfg (s : State) : (fetch s).2.cfg = s.cfg := memRead_cfg s.pc s

@[simp] theorem fetch_reg (s : State) (r : Reg) : (fetch s).2.reg r = s.reg r := memRead_reg s.pc s r

@[simp] theorem fetch_cell (s : State) (a : Word) : (fetch s).2.cell a = s.cell a := memRead_cell s.pc a s

/-- A fetch from storage: the stored word, and nothing changed but pc and the fetched word. -/
theorem fetch_storage {s : State} (h : target s.cfg s.pc = .storage) :
    fetch s = (s.cell s.pc, { s with pc := s.pc + 1, fetched := ⟨s.cell s.pc, s.pc⟩ }) := by
  simp [fetch, memRead_storage h]

/-! ### Placing an instruction -/

theorem target_storageFrom (c : Config) (a : Word) : target c (storageFrom c a) = .storage := by
  unfold storageFrom
  split
  · assumption
  · split
    · assumption
    · rename_i h h1
      rw [target_eq_storage] at h h1 ⊢
      have h2 : ∀ x y : Word, ¬ (x ≠ y) ↔ x.toNat = y.toNat := by
        intro x y; rw [not_not, ← BitVec.toNat_inj]
      constructor <;> intro h3 <;> apply h1 <;> constructor <;> intro h4 <;> apply h <;>
        constructor <;> intro h5 <;> bv_omega

end Sys2Proof.Machine
end

