-- ==== Sys2Proof/Laws/PerInstr.lean ====
section
/-! SUPPORT. Statements about every instruction, one lemma per constructor. Family OpcodeOfEncoding:
the word of an instruction carries the instruction's opcode in bits [15:12] (30_encoding.md R49). -/

namespace Sys2Proof.Laws

/-- The top four bits of a word whose opcode is placed on top and whose other fields lie below. -/
theorem top_of_placeOp (o : Opcode) {x : Word} (hx : ∀ j, x.getLsbD (12 + j) = false) :
    opcodeOf (placeOp o ||| x) = o := by
  have h : (placeOp o ||| x).extractLsb' 12 4 = o.bits := by
    apply BitVec.eq_of_getLsbD_eq
    intro j hj
    have h16 : 12 + j < 16 := by omega
    rw [BitVec.getLsbD_extractLsb', BitVec.getLsbD_or, hx, placeOp, getLsbD_place]
    simp [hj, h16]
  exact (congrArg Opcode.ofBits h).trans (Opcode.ofBits_bits o)

/-- A field that ends at or below bit 11 leaves the top four bits clear. -/
theorem place_below {n : Nat} {lo : Nat} (b : BitVec n) (h : lo + n ≤ 12) (j : Nat) :
    (place lo b).getLsbD (12 + j) = false := by
  rw [getLsbD_place, BitVec.getLsbD_of_ge b (12 + j - lo) (by omega)]
  simp

end Sys2Proof.Laws

namespace Sys2Proof.Laws.OpcodeOfEncoding

/-- The opcode read from an instruction's word is the instruction's. -/
def Statement (i : Instr) : Prop := opcodeOf (encode i) = i.opcode

/-- The fields below the opcode of any format. -/
theorem of_fields {i : Instr} {x : Word} (h : encode i = placeOp i.opcode ||| x)
    (hx : ∀ j, x.getLsbD (12 + j) = false) : Statement i := by
  unfold Statement; rw [h]; exact top_of_placeOp _ hx

theorem br (n z p : Bool) (off : Word) : Statement (.br n z p off) :=
  of_fields (by simp only [encode, BitVec.or_assoc]; rfl)
    fun j => by simp [BitVec.getLsbD_or, place_below]

theorem addR (dr sr1 sr2 : Reg) : Statement (.addR dr sr1 sr2) :=
  of_fields (by simp only [encode, packOPR, BitVec.or_assoc]; rfl)
    fun j => by simp [BitVec.getLsbD_or, place_below]

theorem addI (dr sr1 : Reg) (imm : Word) : Statement (.addI dr sr1 imm) :=
  of_fields (by simp only [encode, packOPI, BitVec.or_assoc]; rfl)
    fun j => by simp [BitVec.getLsbD_or, place_below]

theorem ld (dr : Reg) (off : Word) : Statement (.ld dr off) :=
  of_fields (by simp only [encode, packPC9, BitVec.or_assoc]; rfl)
    fun j => by simp [BitVec.getLsbD_or, place_below]

theorem st (sr : Reg) (off : Word) : Statement (.st sr off) :=
  of_fields (by simp only [encode, packPC9, BitVec.or_assoc]; rfl)
    fun j => by simp [BitVec.getLsbD_or, place_below]

theorem jsr (off : Word) : Statement (.jsr off) :=
  of_fields (by simp only [encode, BitVec.or_assoc]; rfl)
    fun j => by simp [BitVec.getLsbD_or, place_below]

theorem jsrr (base : Reg) : Statement (.jsrr base) :=
  of_fields (rfl)
    fun j => by simp [place_below]

theorem andR (dr sr1 sr2 : Reg) : Statement (.andR dr sr1 sr2) :=
  of_fields (by simp only [encode, packOPR, BitVec.or_assoc]; rfl)
    fun j => by simp [BitVec.getLsbD_or, place_below]

theorem andI (dr sr1 : Reg) (imm : Word) : Statement (.andI dr sr1 imm) :=
  of_fields (by simp only [encode, packOPI, BitVec.or_assoc]; rfl)
    fun j => by simp [BitVec.getLsbD_or, place_below]

theorem ldr (dr base : Reg) (off : Word) : Statement (.ldr dr base off) :=
  of_fields (by simp only [encode, packBASE6, BitVec.or_assoc]; rfl)
    fun j => by simp [BitVec.getLsbD_or, place_below]

theorem str (sr base : Reg) (off : Word) : Statement (.str sr base off) :=
  of_fields (by simp only [encode, packBASE6, BitVec.or_assoc]; rfl)
    fun j => by simp [BitVec.getLsbD_or, place_below]

theorem rti : Statement (.rti) := by unfold Statement; decide

theorem notR (dr sr : Reg) : Statement (.notR dr sr) :=
  of_fields (by simp only [encode, BitVec.or_assoc]; rfl)
    fun j => by simp [BitVec.getLsbD_or, place_below]

theorem ldi (dr : Reg) (off : Word) : Statement (.ldi dr off) :=
  of_fields (by simp only [encode, packPC9, BitVec.or_assoc]; rfl)
    fun j => by simp [BitVec.getLsbD_or, place_below]

theorem sti (sr : Reg) (off : Word) : Statement (.sti sr off) :=
  of_fields (by simp only [encode, packPC9, BitVec.or_assoc]; rfl)
    fun j => by simp [BitVec.getLsbD_or, place_below]

theorem jmp (base : Reg) : Statement (.jmp base) :=
  of_fields (rfl)
    fun j => by simp [place_below]

theorem res : Statement (.res) := by unfold Statement; decide

theorem lea (dr : Reg) (off : Word) : Statement (.lea dr off) :=
  of_fields (by simp only [encode, packPC9, BitVec.or_assoc]; rfl)
    fun j => by simp [BitVec.getLsbD_or, place_below]

theorem trap (vect : BitVec 8) : Statement (.trap vect) :=
  of_fields (rfl)
    fun j => by simp [place_below]

end Sys2Proof.Laws.OpcodeOfEncoding
end

