-- ==== Sys2Proof/Laws/Step.lean ====
section
/-! SUPPORT. What a step can do, said once, and that a placed instruction is the one that runs. -/

namespace Sys2Proof.Machine

theorem step_halted {s : State} (h : s.runState = .halted) : step s = .next s := by
  simp [step, h]

theorem step_running {s : State} (h : s.runState = .running) (ha : s.abort = false) :
    step s = exec (decode (fetch s).1) (fetch s).2 := by
  simp [step, h, ha]

/-- Everything a step can do. -/
theorem step_cases (s : State) :
    (s.runState = .halted ∧ step s = .next s) ∨
    (s.runState = .running ∧ s.abort = true ∧ step s = .refused .hostAbort) ∨
    (s.runState = .running ∧ s.abort = false ∧ step s = exec (decode (fetch s).1) (fetch s).2) := by
  unfold step
  cases hr : s.runState <;> cases ha : s.abort <;> simp

/-- A state that a step's next state came from: Halted and unchanged, or one executed instruction. -/
theorem step_next_cases {s t : State} (h : step s = .next t) :
    (s.runState = .halted ∧ t = s) ∨
    (s.runState = .running ∧ s.abort = false ∧ exec (decode (fetch s).1) (fetch s).2 = .next t) := by
  rcases step_cases s with ⟨hr, hs⟩ | ⟨-, -, hs⟩ | ⟨hr, ha, hs⟩
  · rw [hs] at h; exact .inl ⟨hr, by injection h with h; exact h.symm⟩
  · rw [hs] at h; exact absurd h (by simp)
  · exact .inr ⟨hr, ha, hs ▸ h⟩

/-- The word placed outside the machine is the word the next step decodes and runs. -/
theorem step_withFetchWord (s : State) (nbits w : Nat) :
    step (s.withFetchWord nbits w) =
      exec (decode (tableWord nbits w)) (fetch (s.withFetchWord nbits w)).2 := by
  have hword : (fetch (s.withFetchWord nbits w)).1 = tableWord nbits w := by
    have ht : target (s.withFetchWord nbits w).cfg (s.withFetchWord nbits w).pc = .storage :=
      target_storageFrom s.cfg s.pc
    rw [fetch_storage ht]
    have : (s.withFetchWord nbits w).cell (s.withFetchWord nbits w).pc
        = (s.setCell (storageFrom s.cfg s.pc) (tableWord nbits w)).cell (storageFrom s.cfg s.pc) := rfl
    rw [this]; simp
  rw [step_running rfl rfl, hword]

/-- An invariant that reset meets and every step keeps holds after any number of steps. -/
theorem run_invariant {P : State → Prop} (hstep : ∀ s t, P s → step s = .next t → P t) :
    ∀ (k : Nat) (s t : State), P s → Host.Core.run Sys2Proof.core k s = .next t → P t := by
  intro k
  induction k with
  | zero => intro s t hs h; injection h with h; exact h ▸ hs
  | succ k ih =>
    intro s t hs h
    simp only [Host.Core.run] at h
    cases hst : Sys2Proof.core.step s with
    | next u => rw [hst] at h; exact ih u t (hstep s u hs hst) h
    | fault r => rw [hst] at h; cases h
    | refused r => rw [hst] at h; cases h

/-! ### What the shared ends of the meanings can do -/

/-- The register, flag and keyboard effects of a load. -/
theorem loadFrom_eq (s : State) (dr : Reg) (ea : Word) :
    s.loadFrom dr ea = { (memRead ea s).2 with
      regs := s.regs.set dr (memRead ea s).1, cond := Cond.ofValue (memRead ea s).1 } := by
  simp [State.loadFrom, State.writeDest, State.setReg, State.setcc]

/-- A string service answers the bytes its scan found, or hangs. -/
theorem putString_cases (s : State) (o : Option (List Byte)) :
    (∃ bs, o = some bs ∧ s.putString o = .next (s.emit bs)) ∨
    (o = none ∧ s.putString o = .fault .stringHang) := by
  cases o with
  | none => exact .inr ⟨rfl, rfl⟩
  | some bs => exact .inl ⟨bs, rfl, rfl⟩

/-- The dispatcher's table (R90): which service or fatal error a vector selects. -/
theorem execTrap_cases (v : BitVec 8) (s : State) :
    (v = s.cfg.trapGetc ∧ execTrap v s = trapGetc s) ∨
    (v = s.cfg.trapOut ∧ execTrap v s = trapOut s) ∨
    (v = s.cfg.trapPuts ∧ execTrap v s = trapPuts s) ∨
    (v = s.cfg.trapIn ∧ execTrap v s = trapIn s) ∨
    (v = s.cfg.trapPutsp ∧ execTrap v s = trapPutsp s) ∨
    (v = s.cfg.trapHalt ∧ execTrap v s = trapHalt s) ∨
    (v ∉ s.cfg.vectors ∧ execTrap v s = .next (s.fatal .unsupportedTrap s.fetched)) := by
  unfold execTrap
  by_cases h1 : v = s.cfg.trapGetc
  · exact .inl ⟨h1, by rw [if_pos h1]⟩
  by_cases h2 : v = s.cfg.trapOut
  · exact .inr (.inl ⟨h2, by rw [if_neg h1, if_pos h2]⟩)
  by_cases h3 : v = s.cfg.trapPuts
  · exact .inr (.inr (.inl ⟨h3, by rw [if_neg h1, if_neg h2, if_pos h3]⟩))
  by_cases h4 : v = s.cfg.trapIn
  · exact .inr (.inr (.inr (.inl ⟨h4, by rw [if_neg h1, if_neg h2, if_neg h3, if_pos h4]⟩)))
  by_cases h5 : v = s.cfg.trapPutsp
  · exact .inr (.inr (.inr (.inr (.inl
      ⟨h5, by rw [if_neg h1, if_neg h2, if_neg h3, if_neg h4, if_pos h5]⟩))))
  by_cases h6 : v = s.cfg.trapHalt
  · exact .inr (.inr (.inr (.inr (.inr (.inl
      ⟨h6, by rw [if_neg h1, if_neg h2, if_neg h3, if_neg h4, if_neg h5, if_pos h6]⟩)))))
  exact .inr (.inr (.inr (.inr (.inr (.inr ⟨by simp [Config.vectors, h1, h2, h3, h4, h5, h6],
    by rw [if_neg h1, if_neg h2, if_neg h3, if_neg h4, if_neg h5, if_neg h6]⟩)))))

/-- What the dispatcher needs to tell the six vectors apart (D5). -/
theorem Config.wf_distinct {c : Config} (h : c.wf = true) :
    c.kbsrAddr ≠ c.kbdrAddr ∧ c.vectors.Nodup := by
  simpa [Config.wf] using h

/-- cond after setcc shows the sign of the value (R69). -/
theorem Cond.ofValue_cases (v : Word) :
    (v = 0#16 ∧ Cond.ofValue v = .z) ∨
    (v ≠ 0#16 ∧ v.getLsbD 15 = true ∧ Cond.ofValue v = .n) ∨
    (v ≠ 0#16 ∧ v.getLsbD 15 = false ∧ Cond.ofValue v = .p) := by
  unfold Cond.ofValue
  by_cases h : v = 0#16
  · exact .inl ⟨h, if_pos h⟩
  · rw [if_neg h]
    cases hb : v.getLsbD 15
    · exact .inr (.inr ⟨h, rfl, rfl⟩)
    · exact .inr (.inl ⟨h, rfl, rfl⟩)

end Sys2Proof.Machine
end

