-- ==== Sys2Proof/Tests/Slice0.lean ====
section
/-! SUPPORT. The model's own tests. Expected results come from spec/95_test_vectors.md (named in each
comment) or from the rules by hand; and a witness for each statement's hypotheses. -/

namespace Sys2Proof.Tests

open Sys2Proof.Machine

/-! ### Helpers -/

/-- Reset with the word w at 0x3000: the default start state of spec/95. -/
def start (w : Word) : State := State.reset.setCell 0x3000 w

/-- Reset with pc and the word there. -/
def startAt (pc w : Word) : State := (State.reset.setPc pc).setCell pc w

/-- A part of the next state, if the result is one. -/
def look {α : Type} (r : Result) (f : State → α) : Option α :=
  match r with
  | .next t => some (f t)
  | _ => none

/-- The fault, if the result is one. -/
def stop : Result → Option Fault
  | .fault f => some f
  | _ => none

/-! ### Well-formedness refuses what no encoding gives (R62) -/

theorem test_wf_imm5_range :
    (Instr.addI .r0 .r0 15).wf = true ∧ (Instr.addI .r0 .r0 0xFFF0).wf = true ∧
    (Instr.addI .r0 .r0 16).wf = false ∧ (Instr.andI .r0 .r0 0xFFEF).wf = false := by decide

theorem test_wf_offset6_range :
    (Instr.ldr .r0 .r0 31).wf = true ∧ (Instr.ldr .r0 .r0 32).wf = false ∧
    (Instr.str .r0 .r0 0xFFE0).wf = true ∧ (Instr.str .r0 .r0 0xFFDF).wf = false := by decide

theorem test_wf_offset9_range :
    (Instr.ld .r0 255).wf = true ∧ (Instr.ld .r0 256).wf = false ∧ (Instr.st .r0 256).wf = false ∧
    (Instr.ldi .r0 0xFEFF).wf = false ∧ (Instr.sti .r0 0xFEFF).wf = false ∧
    (Instr.lea .r0 256).wf = false ∧ (Instr.br true true true 256).wf = false := by decide

theorem test_wf_offset11_range :
    (Instr.jsr 1023).wf = true ∧ (Instr.jsr 0xFC00).wf = true ∧ (Instr.jsr 1024).wf = false := by decide

theorem test_config_wf :
    defaultConfig.wf = true ∧ { defaultConfig with kbdrAddr := 0xFE00 }.wf = false ∧
    { defaultConfig with trapIn := 0x20 }.wf = false := by decide

/-! ### Decoding: one word per row of the table, written out from R49 to R61 -/

theorem test_decode_operate :
    decode 0b0001_000_001_0_00_010 = .addR .r0 .r1 .r2 ∧
    decode 0b0001_011_011_1_10000 = .addI .r3 .r3 0xFFF0 ∧
    decode 0b0101_011_001_0_00_010 = .andR .r3 .r1 .r2 ∧
    decode 0b0101_010_010_1_00000 = .andI .r2 .r2 0 ∧
    decode 0b1001_100_101_111111 = .notR .r4 .r5 := by decide

theorem test_decode_control :
    decode 0b0000_010_000000010 = .br false true false 2 ∧
    decode 0b0000_100_100000000 = .br true false false 0xFF00 ∧
    decode 0b1100_000_111_000000 = .jmp .r7 ∧
    decode 0b0100_1_10000000000 = .jsr 0xFC00 ∧
    decode 0b0100_0_00_011_000000 = .jsrr .r3 := by decide

theorem test_decode_load_store :
    decode 0b0010_010_000000011 = .ld .r2 3 ∧
    decode 0b1010_000_000000001 = .ldi .r0 1 ∧
    decode 0b0110_001_010_111111 = .ldr .r1 .r2 0xFFFF ∧
    decode 0b1110_000_111111110 = .lea .r0 0xFFFE ∧
    decode 0b0011_011_111111011 = .st .r3 0xFFFB ∧
    decode 0b1011_001_000000010 = .sti .r1 2 ∧
    decode 0b0111_100_101_000110 = .str .r4 .r5 6 := by decide

theorem test_decode_trap_and_fatal :
    decode 0b1111_0000_00100101 = .trap 0x25 ∧ decode 0b1111_1111_00100101 = .trap 0x25 ∧
    decode 0b1000_000000000000 = .rti ∧ decode 0b1101_111111111111 = .res := by decide

/-- The ignored bits set (spec/95 ADD-6, NOT-4, JMP-3): the same instructions. -/
theorem test_decode_ignored_bits :
    decode 0x105A = decode 0x1042 ∧ decode 0x9000 = decode 0x903F ∧ decode 0xCEBF = decode 0xC080 ∧
    decode 0x46FF = decode 0x40C0 := by decide

theorem test_encode_words :
    encode (.addI .r1 .r1 0xFFFF) = 0x127F ∧ encode (.notR .r4 .r5) = 0x997F ∧
    encode (.jmp .r7) = 0xC1C0 ∧ encode (.str .r5 .r5 0xFFE0) = 0x7B60 ∧
    encode (.br true true true 0xFFFF) = 0x0FFF ∧ encode (.jsr 0xFFFF) = 0x4FFF := by decide

theorem test_decodeTableWord :
    decodeTableWord 16 0x127F = some (.addI .r1 .r1 0xFFFF) ∧ decodeTableWord 32 0 = none := by decide

/-- spec/95 L1-1. -/
theorem test_sext :
    sext (0x10#5) = 0xFFF0 ∧ sext (0x0F#5) = 0x000F ∧ sext (0x20#6) = 0xFFE0 ∧ sext (0x1F#6) = 0x001F ∧
    sext (0x100#9) = 0xFF00 ∧ sext (0x0FF#9) = 0x00FF ∧ sext (0x400#11) = 0xFC00 ∧
    sext (0x3FF#11) = 0x03FF := by decide

/-- spec/95 L1-2. -/
theorem test_flag_rule :
    Cond.ofValue 0x0000 = .z ∧ Cond.ofValue 0x0001 = .p ∧ Cond.ofValue 0x7FFF = .p ∧
    Cond.ofValue 0x8000 = .n ∧ Cond.ofValue 0xFFFF = .n := by decide

/-! ### Operate (spec/95 part 2) -/

/-- ADD-1. -/
theorem test_add_signed_overflow_wraps :
    look (step (((start 0x1042).setReg .r1 0x7FFF).setReg .r2 1)) (fun t => (t.reg .r0, t.cond, t.pc))
      = some (0x8000, .n, 0x3001) := by decide

/-- ADD-2. -/
theorem test_add_carry_discarded :
    look (step (((start 0x1042).setReg .r1 0xFFFF).setReg .r2 1)) (fun t => (t.reg .r0, t.cond))
      = some (0x0000, .z) := by decide

/-- L1-3. -/
theorem test_add_imm_minus_one :
    look (step ((start 0x127F).setReg .r1 1)) (fun t => (t.reg .r1, t.cond)) = some (0, .z) := by decide

/-- AND-2. -/
theorem test_and :
    look (step (((start 0x5642).setReg .r1 0xF0F0).setReg .r2 0xFF00)) (fun t => (t.reg .r3, t.cond))
      = some (0xF000, .n) := by decide

/-- AND-3: the immediate is sign-extended. -/
theorem test_and_imm_sign_extended :
    look (step ((start 0x527F).setReg .r1 0x1234)) (fun t => (t.reg .r1, t.cond)) = some (0x1234, .p) := by
  decide

/-- NOT-1. -/
theorem test_not :
    look (step ((start 0x997F).setReg .r5 0x00FF)) (fun t => (t.reg .r4, t.cond)) = some (0xFF00, .n) := by
  decide

/-! ### Control -/

/-- BR-5, BR-2. -/
theorem test_br :
    look (step ((start 0x0900).setcc 0xFFFF)) (·.pc) = some 0x2F01 ∧
    look (step ((start 0x0402).setcc 1)) (·.pc) = some 0x3001 := by decide

/-- BR-7: the fetch at 0xFFFF wraps. -/
theorem test_br_wraps : look (step ((startAt 0xFFFF 0x0E01).setcc 1)) (·.pc) = some 0x0001 := by decide

/-- JMP-3. -/
theorem test_jmp : look (step ((start 0xCEBF).setReg .r2 0x4000)) (·.pc) = some 0x4000 := by decide

/-- JSR-3. -/
theorem test_jsr :
    look (step (startAt 0xFFFF 0x4FFF)) (fun t => (t.reg .r7, t.pc)) = some (0x0000, 0xFFFF) := by decide

/-- JSRR-1. -/
theorem test_jsrr :
    look (step ((startAt 0x3010 0x40C0).setReg .r3 0x4000)) (fun t => (t.reg .r7, t.pc))
      = some (0x3011, 0x4000) := by decide

/-- JSRR-2: the base is read after the link write. -/
theorem test_jsrr_r7 :
    look (step ((start 0x41C0).setReg .r7 0x5000)) (fun t => (t.reg .r7, t.pc)) = some (0x3001, 0x3001) := by
  decide

/-! ### Loads and stores -/

/-- LD-2: it loads its own word. -/
theorem test_ld : look (step (start 0x25FF)) (fun t => (t.reg .r2, t.cond)) = some (0x25FF, .p) := by decide

/-- LDI-1. -/
theorem test_ldi :
    look (step (((start 0xA001).setCell 0x3002 0x4000).setCell 0x4000 0x1234))
      (fun t => (t.reg .r0, t.cond)) = some (0x1234, .p) := by decide

/-- LDI-3: a poll of KBSR latches the key. -/
theorem test_ldi_kbsr :
    look (step { (start 0xA201).setCell 0x3002 0xFE00 with input := [some 0x41] })
      (fun t => (t.reg .r1, t.cond, t.kbReady, t.kbData)) = some (0x8000, .n, true, 0x0041) := by decide

/-- LDR-3: the address wraps. -/
theorem test_ldr_wraps :
    look (step (((start 0x6281).setReg .r2 0xFFFF).setCell 0 7)) (fun t => (t.reg .r1, t.cond))
      = some (7, .p) := by decide

/-- LDR-2: DR is the base. -/
theorem test_ldr_same_register :
    look (step (((start 0x6480).setReg .r2 0x4000).setCell 0x4000 5)) (fun t => (t.reg .r2))
      = some 5 := by decide

/-- LEA-4: no poll. -/
theorem test_lea_reads_no_memory :
    look (step { startAt 0xFE01 0xE1FE with input := [some 0x41] })
      (fun t => (t.reg .r0, t.cond, t.pc, t.input)) = some (0xFE00, .n, 0xFE02, [some 0x41]) := by decide

/-- ST-1. -/
theorem test_st :
    look (step (((startAt 0x3010 0x37FB).setReg .r3 0xBEEF).setcc 0x8000))
      (fun t => (t.cell 0x300C, t.cond)) = some (0xBEEF, .n) := by decide

/-- ST-2: a write to KBSR is discarded. -/
theorem test_st_kbsr_discarded :
    look (step ((startAt 0xFDFF 0x3000).setReg .r0 0x1234)) (fun t => (t.cell 0xFE00, t.kbReady, t.pc))
      = some (0, false, 0xFE00) := by decide

/-- STI-1. -/
theorem test_sti :
    look (step (((start 0xB202).setReg .r1 0x42).setCell 0x3003 0x5000)) (·.cell 0x5000)
      = some 0x42 := by decide

/-- STR-2: SR is the base. -/
theorem test_str :
    look (step ((start 0x7B60).setReg .r5 0x4000)) (·.cell 0x3FE0) = some 0x4000 := by decide

/-! ### Traps and fatal opcodes -/

/-- GETC-3: the latched key is taken first. -/
theorem test_getc_latched :
    look (step { start 0xF020 with kbReady := true, kbData := 0x41, input := [some 0x62] })
      (fun t => (t.reg .r0, t.cond, t.kbReady, t.input)) = some (0x41, .p, false, [some 0x62]) := by decide

/-- GETC-4: a hold. -/
theorem test_getc_holds : stop (step (start 0xF020)) = some (.keyWaitHold []) := by decide

/-- IN-1. -/
theorem test_in :
    look (step { start 0xF023 with input := [none, some 0x79] })
      (fun t => (t.reg .r0, t.output, t.kbData)) = some (0x79, defaultInPrompt ++ [0x79], 0x79) := by decide

/-- OUT-1. -/
theorem test_out : look (step ((start 0xF021).setReg .r0 0x1241)) (·.output) = some [0x41] := by decide

/-- PUTS-3: a word with a zero low byte is no terminator. -/
theorem test_puts_zero_low_byte :
    look (step (((start 0xF022).setReg .r0 0x4000).setCell 0x4000 0x0100)) (·.output) = some [0] := by decide

/-- PUTS-4: the address wraps. -/
theorem test_puts_wraps :
    look (step ((((start 0xF022).setReg .r0 0xFFFF).setCell 0xFFFF 0x41).setCell 0 0x42)) (·.output)
      = some [0x41, 0x42] := by decide

/-- PUTSP-1, PUTSP-3. -/
theorem test_putsp :
    look (step ((((start 0xF024).setReg .r0 0x4000).setCell 0x4000 0x6548).setCell 0x4001 0x006C)) (·.output)
      = some [0x48, 0x65, 0x6C] ∧
    look (step ((((start 0xF024).setReg .r0 0x4000).setCell 0x4000 0x41).setCell 0x4001 0x42)) (·.output)
      = some [0x41, 0x42] := by decide

/-- HALT-1, HALT-2. -/
theorem test_halt :
    look (step (startAt 0x3005 0xFF25)) (fun t => (t.output, t.runState, t.haltReason, t.pc))
      = some ([0x48, 0x41, 0x4C, 0x54, 0x0A], .halted, some .haltTrap, 0x3006) := by decide

/-- TRAP-BAD-1, TRAP-BAD-3. -/
theorem test_trap_bad :
    look (step (start 0xF026)) (fun t => (t.haltReason, t.faultInfo, t.pc, t.output))
      = some (some .unsupportedTrap, some ⟨0xF026, 0x3000⟩, 0x3001, []) ∧
    look (step (start 0xF0FF)) (·.faultInfo) = some (some ⟨0xF0FF, 0x3000⟩) := by decide

/-- RTI-1. -/
theorem test_rti :
    look (step (start 0x8000)) (fun t => (t.runState, t.haltReason, t.faultInfo, t.pc))
      = some (.halted, some .unsupportedOpcode, some ⟨0x8000, 0x3000⟩, 0x3001) := by decide

/-- RES-1. -/
theorem test_res :
    look (step (start 0xDFFF)) (fun t => (t.runState, t.haltReason, t.faultInfo, t.pc))
      = some (.halted, some .unsupportedOpcode, some ⟨0xDFFF, 0x3000⟩, 0x3001) := by decide

/-- FETCH-1. -/
theorem test_fetch_from_kbsr :
    look (step { State.reset.setPc 0xFE00 with input := [some 0x41] })
      (fun t => (t.faultInfo, t.pc, t.kbReady, t.kbData))
      = some (some ⟨0x8000, 0xFE00⟩, 0xFE01, true, 0x41) := by decide

/-! ### The loader -/

/-- L1-8. -/
theorem test_overlapping_images :
    (boot [[0x30, 0x00, 0x00, 0x01, 0x00, 0x02, 0x00, 0x03], [0x30, 0x01, 0x00, 0x09]]).toOption.map
      (fun s => (s.cell 0x3000, s.cell 0x3001, s.cell 0x3002, s.pc))
      = some (0x0001, 0x0009, 0x0003, 0x3000) := by decide

/-! ### Witnesses of the statements' hypotheses -/

/-- A state that meets the invariant, with some storage listed. -/
theorem start_inv (w : Word) (h : (start w).mem.wf = true) : (start w).Inv :=
  { memWf := h
    kbDataByte := (by decide : highByte 0#16 = 0#8)
    cfgWf := (by decide : defaultConfig.wf = true)
    haltReason_iff := by constructor <;> intro hh <;> cases hh
    faultInfo_iff := by
      constructor
      · intro hh; cases hh
      · rintro ⟨r, hr, -⟩; cases hr }

theorem witness_table_rows :
    (0x0402 &&& 0xF000 : Word) = 0x0000 ∧ (0x1042 &&& 0xF020 : Word) = 0x1000 ∧
    (0x127F &&& 0xF020 : Word) = 0x1020 ∧ (0x2403 &&& 0xF000 : Word) = 0x2000 ∧
    (0x37FB &&& 0xF000 : Word) = 0x3000 ∧ (0x4805 &&& 0xF800 : Word) = 0x4800 ∧
    (0x40C0 &&& 0xF800 : Word) = 0x4000 ∧ (0x5642 &&& 0xF020 : Word) = 0x5000 ∧
    (0x54A0 &&& 0xF020 : Word) = 0x5020 ∧ (0x62BF &&& 0xF000 : Word) = 0x6000 ∧
    (0x7946 &&& 0xF000 : Word) = 0x7000 ∧ (0x8FFF &&& 0xF000 : Word) = 0x8000 ∧
    (0x997F &&& 0xF000 : Word) = 0x9000 ∧ (0xA001 &&& 0xF000 : Word) = 0xA000 ∧
    (0xB202 &&& 0xF000 : Word) = 0xB000 ∧ (0xC1C0 &&& 0xF000 : Word) = 0xC000 ∧
    (0xDFFF &&& 0xF000 : Word) = 0xD000 ∧ (0xE1FE &&& 0xF000 : Word) = 0xE000 ∧
    (0xF025 &&& 0xF000 : Word) = 0xF000 := by decide

/-- For SetccFollowsTheSign: a flag-setting instruction that completes. -/
theorem witness_setcc : destOf (.addI .r3 .r0 0xFFFF) = some .r3 ∧
    ∃ t, exec (.addI .r3 .r0 0xFFFF) State.reset = .next t := ⟨rfl, _, rfl⟩

/-- For the branch statement: taken and not taken, with no and with all conditions requested. -/
theorem witness_branch :
    State.reset.cond = .z ∧ (∃ t, exec (.br false true false 2) State.reset = .next t) ∧
    (∃ t, exec (.br true false true 2) State.reset = .next t) := ⟨rfl, ⟨_, rfl⟩, ⟨_, rfl⟩⟩

/-- For JsrThenRetReturnsAfterTheCall (spec/95 L1-5). -/
theorem witness_jsr_ret :
    let s := (start 0x4801).setCell 0x3002 0xC1C0
    s.runState = .running ∧ s.abort = false ∧ target s.cfg s.pc = .storage ∧
    decode (s.cell s.pc) = .jsr 1 ∧ target s.cfg (s.pc + 1 + 1) = .storage ∧
    decode (s.cell (s.pc + 1 + 1)) = .jmp .r7 := by decide

/-- For the keyboard statements: the four states of the latch and the console. -/
theorem witness_keyboard :
    { State.reset with kbReady := true, kbData := 0x41 }.kbReady = true ∧
    { State.reset with input := [some 0x41] }.input = some 0x41 :: [] ∧
    { State.reset with input := [none] }.input = none :: [] ∧
    State.reset.kbReady = false ∧ State.reset.input = [] ∧ State.reset.cfg.wf = true := by decide

/-- For the statements about addresses: storage at both ends and beside the keyboard, and the two
keyboard cells. -/
theorem witness_targets :
    target defaultConfig 0x0000 = .storage ∧ target defaultConfig 0xFDFF = .storage ∧
    target defaultConfig 0xFE00 = .kbsr ∧ target defaultConfig 0xFE01 = .storage ∧
    target defaultConfig 0xFE02 = .kbdr ∧ target defaultConfig 0xFE03 = .storage ∧
    target defaultConfig 0xFFFF = .storage := by decide

/-- For the load and store statements' clauses: storage and keyboard addresses that an offset reaches. -/
theorem witness_load_store_targets :
    target (start 0).cfg (eaPC 0xFFFF (start 0)) = .storage ∧
    target (startAt 0xFDFF 0).cfg (eaPC 1 (startAt 0xFDFF 0)) = .kbsr ∧
    target (start 0).cfg (eaBase .r2 1 ((start 0).setReg .r2 0xFFFF)) = .storage ∧
    target (start 0).cfg (eaBase .r2 0xFFFF ((start 0).setReg .r2 0xFE03)) = .kbdr ∧
    (let s := (start 0xA001).setCell 0x3001 0x4000
     target s.cfg (eaPC 1 s) = .storage ∧ target s.cfg (s.cell (eaPC 1 s)) = .storage ∧
       (memRead (eaPC 1 s) s).1 = 0x4000) ∧
    (let s := (start 0xB000).setCell 0x3001 0xFE02
     target s.cfg (memRead (eaPC 1 s) s).1 = .kbdr) := by decide

/-- For StorageChangesOnlyByStores: a step of each store instruction that changes a cell. -/
theorem witness_store_changes :
    (∃ t, step ((start 0x3200).setReg .r1 0xF025) = .next t ∧
      t.cell 0x3001 ≠ ((start 0x3200).setReg .r1 0xF025).cell 0x3001) ∧
    (∃ t, step ((start 0x7B60).setReg .r5 0x4000) = .next t ∧
      t.cell 0x3FE0 ≠ ((start 0x7B60).setReg .r5 0x4000).cell 0x3FE0) ∧
    (∃ t, step (((start 0xB202).setReg .r1 0x42).setCell 0x3003 0x5000) = .next t ∧
      t.cell 0x5000 ≠ (((start 0xB202).setReg .r1 0x42).setCell 0x3003 0x5000).cell 0x5000) :=
  ⟨⟨_, rfl, by decide⟩, ⟨_, rfl, by decide⟩, ⟨_, rfl, by decide⟩⟩

/-- For the GETC and IN statements: a latched key, and a key after one "no key". -/
theorem witness_key_services :
    { start 0xF020 with kbReady := true, kbData := 0x41 }.kbReady = true ∧
    (start 0xF020).cfg.wf = true ∧ (start 0xF020).kbReady = false ∧
    KeyComes [none, some 0x79, some 0x7A] 0x79 [some 0x7A] ∧ NoKeyComes [none, none] ∧
    NoKeyComes (start 0xF020).input :=
  ⟨rfl, by decide, rfl, ⟨1, rfl⟩, by simp [NoKeyComes], fun o h => nomatch (h : o ∈ [])⟩

/-- For HoldIsLiftedByAKey. -/
theorem witness_hold : (start 0xF020).Inv ∧ step (start 0xF020) = .fault (.keyWaitHold []) ∧
    (start 0xF023).Inv ∧ step (start 0xF023) = .fault (.keyWaitHold defaultInPrompt) :=
  ⟨start_inv _ (by decide), rfl, start_inv _ (by decide), rfl⟩

/-- For the PUTS and PUTSP statements: a string of one word, and the empty string. -/
theorem witness_strings :
    let s := ((start 0xF022).setReg .r0 0xFFFF).setCell 0xFFFF 0x41
    s.cfg.wf = true ∧ (∀ k < 1, peek (s.reg .r0 + BitVec.ofNat 16 k) s ≠ 0) ∧
    peek (s.reg .r0 + BitVec.ofNat 16 1) s = 0 ∧
    (∀ k < 1, lowByte (peek (s.reg .r0 + BitVec.ofNat 16 k) s) ≠ 0) ∧
    lowByte (peek (s.reg .r0 + BitVec.ofNat 16 1) s) = 0 ∧
    peek (State.reset.reg .r0 + BitVec.ofNat 16 0) State.reset = 0 := by decide

/-- For the unsupported traps: the vectors just outside the table and the last one. -/
theorem witness_unsupported_vectors :
    (0x1F : BitVec 8) ∉ State.reset.cfg.vectors ∧ (0x26 : BitVec 8) ∉ State.reset.cfg.vectors ∧
    (0xFF : BitVec 8) ∉ State.reset.cfg.vectors ∧ (0x25 : BitVec 8) ∈ State.reset.cfg.vectors := by decide

/-- For the step statements: a running core at a storage address, a Halted one, one asked to stop. -/
theorem witness_step :
    (start 0x1021).runState = .running ∧ (start 0x1021).abort = false ∧
    target (start 0x1021).cfg (start 0x1021).pc = .storage ∧
    { State.reset with runState := .halted }.runState = .halted ∧
    { State.reset with abort := true }.abort = true := by decide

/-- For FatalErrorsArePrecise: an RTI word, a RES word, a TRAP word of an unknown vector. -/
theorem witness_fatal_words :
    ((start 0x8ABC).cell (start 0x8ABC).pc).extractLsb' 12 4 = 0x8 ∧
    ((start 0xDFFF).cell (start 0xDFFF).pc).extractLsb' 12 4 = 0xD ∧
    ((start 0xF026).cell (start 0xF026).pc).extractLsb' 12 4 = 0xF ∧
    ((start 0xF026).cell (start 0xF026).pc).extractLsb' 0 8 ∉ (start 0xF026).cfg.vectors := by decide

/-- For StoreIsSeenByTheNextFetch (spec/95 ST-3). -/
theorem witness_store_then_fetch :
    (start 0x3200).runState = .running ∧ (start 0x3200).abort = false ∧
    target (start 0x3200).cfg (start 0x3200).pc = .storage ∧
    target (start 0x3200).cfg ((start 0x3200).pc + 1) = .storage ∧
    decode ((start 0x3200).cell (start 0x3200).pc) = .st .r1 0 := by decide

/-- For FetchFromKbsrPolls. -/
theorem witness_fetch_kbsr :
    let s := State.reset.setPc 0xFE00
    s.runState = .running ∧ s.abort = false ∧ s.pc = s.cfg.kbsrAddr ∧ s.kbReady = false ∧ s.input = [] ∧
    { s with input := [some 0x41] }.input = some 0x41 :: [] ∧ { s with kbReady := true }.kbReady = true ∧
    { s with input := [none] }.input = none :: [] := by decide

/-- For the rules of what an instruction may change: instructions that do change registers, cond, pc. -/
theorem witness_changes :
    (∃ t, exec (.jsr 5) State.reset = .next t ∧ t.reg .r7 ≠ State.reset.reg .r7 ∧ t.pc ≠ State.reset.pc) ∧
    (∃ t, exec (.addI .r1 .r1 1) State.reset = .next t ∧ t.reg .r1 ≠ State.reset.reg .r1 ∧
      t.cond ≠ State.reset.cond) ∧
    (∃ t, exec (.trap 0x20) { State.reset with input := [some 0x61] } = .next t ∧
      t.reg .r0 ≠ State.reset.reg .r0 ∧ t.cond ≠ State.reset.cond) :=
  ⟨⟨_, rfl, by decide, by decide⟩, ⟨_, rfl, by decide, by decide⟩, ⟨_, rfl, by decide, by decide⟩⟩

/-- For HaltedIsEnteredOnlyByHaltOrFatalError: its three cases. -/
theorem witness_halted :
    (∃ t, step (start 0xF025) = .next t ∧ t.runState = .halted) ∧
    (∃ t, step (start 0x8000) = .next t ∧ t.runState = .halted) ∧
    (∃ t, step (start 0xF026) = .next t ∧ t.runState = .halted) := ⟨⟨_, rfl, rfl⟩, ⟨_, rfl, rfl⟩, ⟨_, rfl, rfl⟩⟩

/-- For StepStopsOnlyAsHoldHangOrAbort. -/
theorem witness_stops : step (start 0xF020) = .fault (.keyWaitHold []) ∧
    step { State.reset with abort := true } = .refused .hostAbort := ⟨rfl, rfl⟩

/-- For the statements about a step's next state: one that writes to the console and takes an answer. -/
theorem witness_next :
    ∃ t, step { start 0xF023 with input := [some 0x79] } = .next t ∧ t.output ≠ [] ∧ t.input = [] :=
  ⟨_, rfl, by decide, rfl⟩

/-- For StepKeepsTheInvariant. -/
theorem witness_invariant : (start 0xF025).Inv ∧ ∃ t, step (start 0xF025) = .next t :=
  ⟨start_inv _ (by decide), _, rfl⟩

/-- For CellsBehindTheKeyboardAreUnreachable: two different machines that are the same to programs. -/
theorem witness_unreachable :
    SameToPrograms State.reset { State.reset with mem := [(0xFE00, 7)] } ∧
    State.reset ≠ { State.reset with mem := [(0xFE00, 7)] } := by
  refine ⟨⟨rfl, fun a ha => ?_⟩, by decide⟩
  have hne : (0xFE00 : Nat) ≠ a.toNat := fun h => by
    have : a = 0xFE00 := BitVec.eq_of_toNat_eq h.symm
    subst this; exact absurd ha (by decide)
  simp [State.cell, State.reset, Memory.read, hne]

/-- For StepDoesNotReadTheOldInstructionRegister. -/
theorem witness_instruction_register : State.reset.runState = .running := rfl

/-- For the loader's statements: an image that ends at 0xFFFF, one that would pass it, a file of one
byte, an odd file, and two images. -/
theorem witness_loader :
    (0xFFFF : Word).toNat + [0x1234#16].length ≤ 65536 ∧ 65536 < (0xFFFF : Word).toNat + [1#16, 2#16].length ∧
    [0x30#8].length < 2 ∧ 2 ≤ [1#8, 2#8, 3#8].length ∧ [1#8, 2#8, 3#8].length % 2 = 1 ∧
    (∃ s, boot [imageFile 0x3000 [1, 2]] = .ok s) ∧
    (∃ m, loadImages [] ([imageFile 0x3000 [1, 2]] ++ [imageFile 0x3001 [9]]) = .ok m) :=
  ⟨by decide, by decide, by decide, by decide, by decide, ⟨_, rfl⟩, ⟨_, rfl⟩⟩

end Sys2Proof.Tests
end

section
/-! The field extensions and the ALU (00_scope.md R11, R12). -/

namespace Sys2Proof

/-- The bits of a sign extension: the field's own, then copies of its top bit. -/
theorem getLsbD_sext {n : Nat} (hn : 0 < n) (hn' : n ≤ 16) (v : BitVec n) {j : Nat} (hj : j < 16) :
    (sext v).getLsbD j = if j < n then v.getLsbD j else v.getLsbD (n - 1) := by
  rw [sext_eq_signExtend hn hn', BitVec.getLsbD_signExtend, BitVec.msb_eq_getLsbD_last]
  simp [hj]

/-- Extending the low bits of an extended field again changes nothing: the word is in the field's range. -/
theorem sext_extract_sext {n : Nat} (hn : 0 < n) (hn' : n ≤ 16) (v : BitVec n) :
    sext ((sext v).extractLsb' 0 n) = sext v :=
  sext_extract hn hn' (fitsSigned_sext hn hn' v)

end Sys2Proof

namespace Sys2Proof.Machine

@[simp] theorem lowByte_zext (k : Byte) : lowByte (zext k) = k := by
  apply BitVec.eq_of_getLsbD_eq
  intro j hj
  have hj16 : j < 16 := by omega
  simp [lowByte, zext, hj, hj16]

@[simp] theorem highByte_zext (k : Byte) : highByte (zext k) = 0 := by
  apply BitVec.eq_of_getLsbD_eq
  intro j _
  simp [highByte, zext]

theorem toNat_add16 (a b : Word) : (add16 a b).toNat = (a.toNat + b.toNat) % 65536 :=
  BitVec.toNat_add a b

theorem getLsbD_and16 (a b : Word) (j : Nat) :
    (and16 a b).getLsbD j = (a.getLsbD j && b.getLsbD j) :=
  BitVec.getLsbD_and

theorem getLsbD_not16 (a : Word) {j : Nat} (hj : j < 16) : (not16 a).getLsbD j = !a.getLsbD j := by
  rw [not16, BitVec.getLsbD_not, decide_eq_true hj, Bool.true_and]

/-- Settles O6: each field width is between 1 and 16, where `sext` is the library's sign extension. -/
theorem sextReplicatesTheSignBit : Obligations.SextReplicatesTheSignBit := by
  refine ⟨fun n hmem v => ?_, fun k => ⟨lowByte_zext k, highByte_zext k⟩⟩
  have hwidth : 0 < n ∧ n ≤ 16 := by
    simp only [List.mem_cons, List.not_mem_nil, or_false] at hmem
    omega
  obtain ⟨hn, hn'⟩ := hwidth
  exact ⟨fun j hj => getLsbD_sext hn hn' v hj, sext_toInt hn hn' v, sext_extract_sext hn hn' v⟩

/-- Settles O9, from the value of the sum and the bits of the two bitwise operations. -/
theorem arithmeticIsModulo65536 : Obligations.ArithmeticIsModulo65536 := fun a b =>
  ⟨toNat_add16 a b, fun j _ => getLsbD_and16 a b j, fun _ hj => getLsbD_not16 a hj⟩

end Sys2Proof.Machine
end

section
/-! What one executed instruction can do to the state, said once. The rules of which instructions
change a register (R16), cond (R20) or the run state (R26) are read off it. -/

namespace Sys2Proof.Machine

/-! ### Only the keyboard moved -/

/-- s with other contents of the keyboard cells and other answers left at the console: all that a
memory read or a taken key can change. -/
def State.withKeyboard (s : State) (ready : Bool) (data : Word) (input : List (Option Byte)) : State :=
  { s with kbReady := ready, kbData := data, input := input }

section
variable (s : State) (ready : Bool) (data : Word) (input : List (Option Byte))

@[simp] theorem State.reg_withKeyboard (r : Reg) : (s.withKeyboard ready data input).reg r = s.reg r := rfl

@[simp] theorem State.withKeyboard_cond : (s.withKeyboard ready data input).cond = s.cond := rfl

@[simp] theorem State.withKeyboard_runState : (s.withKeyboard ready data input).runState = s.runState := rfl

end

theorem State.pollKey_eq_withKeyboard (s : State) :
    ∃ ready data input, s.pollKey = s.withKeyboard ready data input := by
  rcases s.pollKey_cases with ⟨-, h⟩ | ⟨-, _, _, -, h⟩ | ⟨-, _, -, h⟩ | ⟨-, -, h⟩ <;>
    exact ⟨_, _, _, h⟩

theorem memRead_eq_withKeyboard (a : Word) (s : State) :
    ∃ ready data input, (memRead a s).2 = s.withKeyboard ready data input := by
  obtain ⟨_, _, _, hpoll⟩ := s.pollKey_eq_withKeyboard
  rcases memRead_state_cases a s with ⟨-, h⟩ | ⟨-, h⟩ | ⟨-, h⟩
  · exact ⟨_, _, _, h⟩
  · exact ⟨_, _, _, h.trans hpoll⟩
  · exact ⟨_, _, _, h.trans (by rw [hpoll]; rfl)⟩

theorem getKey_eq_withKeyboard {s t : State} {k : Word} (h : getKey s = some (k, t)) :
    ∃ ready data input, t = s.withKeyboard ready data input :=
  ⟨_, _, _, (getKey_some h).2⟩

/-! ### The effect of an instruction -/

/-- The ways an instruction i that completes can change s, by kind of instruction. -/
inductive ExecEffect (s : State) : Instr → State → Prop
  | writesDest {i : Instr} {dr : Reg} (ready data input) (v : Word) (hdest : destOf i = some dr) :
      ExecEffect s i ((s.withKeyboard ready data input).writeDest dr v)
  | stores {i : Instr} (ready data input) (a v : Word) (hi : i.opcode ∈ [.st, .sti, .str]) :
      ExecEffect s i (memWrite a v (s.withKeyboard ready data input))
  | jumps {i : Instr} (pc' : Word) (hi : (∃ n z p off, i = .br n z p off) ∨ ∃ base, i = .jmp base) :
      ExecEffect s i (s.setPc pc')
  | calls {i : Instr} (pc' : Word) (hi : (∃ off, i = .jsr off) ∨ ∃ base, i = .jsrr base) :
      ExecEffect s i ((s.setReg .r7 s.pc).setPc pc')
  | takesKey (ready data input) (k : Word) :
      ExecEffect s (.trap s.cfg.trapGetc) ((s.withKeyboard ready data input).writeDest .r0 k)
  | takesKeyWithEcho (ready data input) (k : Word) :
      ExecEffect s (.trap s.cfg.trapIn)
        ((((s.emit s.cfg.inPrompt).withKeyboard ready data input).emit [lowByte k]).writeDest .r0 k)
  | prints {vect : BitVec 8} (bs : List Byte)
      (hvect : vect ∈ [s.cfg.trapOut, s.cfg.trapPuts, s.cfg.trapPutsp]) :
      ExecEffect s (.trap vect) (s.emit bs)
  | halts : ExecEffect s (.trap s.cfg.trapHalt) (s.emit s.cfg.haltNotice).halt
  | unsupportedTrap {vect : BitVec 8} (hvect : vect ∉ s.cfg.vectors) :
      ExecEffect s (.trap vect) (s.fatal .unsupportedTrap s.fetched)
  | unsupportedOpcode {i : Instr} (hi : i = .rti ∨ i = .res) :
      ExecEffect s i (s.fatal .unsupportedOpcode s.fetched)

theorem loadFrom_effect {s s₁ : State} {i : Instr} {dr : Reg} (ea : Word) (hdest : destOf i = some dr)
    (hread : ∃ ready data input, s₁ = s.withKeyboard ready data input) :
    ExecEffect s i (s₁.loadFrom dr ea) := by
  obtain ⟨_, _, _, rfl⟩ := hread
  obtain ⟨ready, data, input, hread⟩ := memRead_eq_withKeyboard ea (s.withKeyboard _ _ _)
  rw [State.loadFrom, hread]
  exact .writesDest ready data input _ hdest

theorem trapGetc_effect {s t : State} (h : trapGetc s = .next t) :
    ExecEffect s (.trap s.cfg.trapGetc) t := by
  unfold trapGetc at h
  split at h
  next k s₁ hkey =>
    obtain ⟨_, _, _, rfl⟩ := getKey_eq_withKeyboard hkey
    cases h
    exact .takesKey _ _ _ k
  next => cases h

theorem trapIn_effect {s t : State} (h : trapIn s = .next t) :
    ExecEffect s (.trap s.cfg.trapIn) t := by
  unfold trapIn at h
  split at h
  next k s₁ hkey =>
    obtain ⟨_, _, _, rfl⟩ := getKey_eq_withKeyboard hkey
    cases h
    exact .takesKeyWithEcho _ _ _ k
  next => cases h

theorem putString_effect {s t : State} {vect : BitVec 8} {scanned : Option (List Byte)}
    (hvect : vect ∈ [s.cfg.trapOut, s.cfg.trapPuts, s.cfg.trapPutsp])
    (h : s.putString scanned = .next t) : ExecEffect s (.trap vect) t := by
  rcases putString_cases s scanned with ⟨bs, -, hput⟩ | ⟨-, hput⟩ <;> rw [hput] at h <;> cases h
  exact .prints bs hvect

theorem execTrap_effect {s t : State} {vect : BitVec 8} (h : execTrap vect s = .next t) :
    ExecEffect s (.trap vect) t := by
  rcases execTrap_cases vect s with ⟨rfl, hv⟩ | ⟨rfl, hv⟩ | ⟨rfl, hv⟩ | ⟨rfl, hv⟩ | ⟨rfl, hv⟩ |
    ⟨rfl, hv⟩ | ⟨hvect, hv⟩ <;> rw [hv] at h
  · exact trapGetc_effect h
  · cases h; exact .prints _ (by simp)
  · exact putString_effect (by simp) h
  · exact trapIn_effect h
  · exact putString_effect (by simp) h
  · cases h; exact .halts
  · cases h; exact .unsupportedTrap hvect

/-- Everything an instruction that completes can do. -/
theorem exec_effect {i : Instr} {s t : State} (h : exec i s = .next t) : ExecEffect s i t := by
  cases i with
  | addR | addI | andR | andI | notR | lea =>
    cases h; exact .writesDest s.kbReady s.kbData s.input _ rfl
  | ld | ldr => cases h; exact loadFrom_effect _ rfl ⟨s.kbReady, s.kbData, s.input, rfl⟩
  | ldi => cases h; exact loadFrom_effect _ rfl (memRead_eq_withKeyboard _ s)
  | st | str => cases h; exact .stores s.kbReady s.kbData s.input _ _ (by simp [Instr.opcode])
  | sti sr off =>
    cases h
    obtain ⟨_, _, _, hread⟩ := memRead_eq_withKeyboard (eaPC off s) s
    rw [hread]
    exact .stores _ _ _ _ _ (by simp [Instr.opcode])
  | br n z p off =>
    cases h
    split
    · exact .jumps _ (.inl ⟨n, z, p, off, rfl⟩)
    · exact .jumps s.pc (.inl ⟨n, z, p, off, rfl⟩)
  | jmp base => cases h; exact .jumps _ (.inr ⟨base, rfl⟩)
  | jsr off => cases h; exact .calls _ (.inl ⟨off, rfl⟩)
  | jsrr base => cases h; exact .calls _ (.inr ⟨base, rfl⟩)
  | rti => cases h; exact .unsupportedOpcode (.inl rfl)
  | res => cases h; exact .unsupportedOpcode (.inr rfl)
  | trap vect => exact execTrap_effect h

/-! ### What changes where -/

/-- Settles O46: each kind of effect writes at most one register. -/
theorem registersChangeOnlyWhereTheSpecSays : Obligations.RegistersChangeOnlyWhereTheSpecSays := by
  intro i s t r h hne
  cases exec_effect h with
  | writesDest _ _ _ _ hdest =>
    rw [State.reg_writeDest, State.reg_withKeyboard, ite_ne_right_iff] at hne
    exact .inl (hne.1 ▸ hdest)
  | calls _ hi =>
    rw [State.reg_setPc, State.reg_setReg, ite_ne_right_iff] at hne
    exact .inr (.inl ⟨hne.1, hi⟩)
  | takesKey =>
    rw [State.reg_writeDest, State.reg_withKeyboard, ite_ne_right_iff] at hne
    exact .inr (.inr ⟨hne.1, .inl rfl⟩)
  | takesKeyWithEcho =>
    rw [State.reg_writeDest, State.reg_emit, State.reg_withKeyboard, State.reg_emit,
      ite_ne_right_iff] at hne
    exact .inr (.inr ⟨hne.1, .inr rfl⟩)
  | stores | jumps | prints | halts | unsupportedTrap | unsupportedOpcode => simp at hne

/-- Settles O47: only the effects that end in setcc change cond. -/
theorem condChangesOnlyWhereTheSpecSays : Obligations.CondChangesOnlyWhereTheSpecSays := by
  intro i s t h hne
  cases exec_effect h with
  | writesDest _ _ _ _ hdest => exact .inl ⟨_, hdest⟩
  | takesKey => exact .inr (.inl rfl)
  | takesKeyWithEcho => exact .inr (.inr rfl)
  | stores | jumps | calls | prints | halts | unsupportedTrap | unsupportedOpcode => simp at hne

/-- An instruction of a running core that halts it is HALT or raises one of the two fatal errors. -/
theorem exec_enters_halted {i : Instr} {s t : State} (hrun : s.runState = .running)
    (h : exec i s = .next t) (hhalt : t.runState = .halted) :
    (i = .trap s.cfg.trapHalt ∧ t.haltReason = some .haltTrap ∧ t.faultInfo = s.faultInfo) ∨
    ((i = .rti ∨ i = .res) ∧ t.haltReason = some .unsupportedOpcode ∧ t.faultInfo = some s.fetched) ∨
    (∃ v, i = .trap v ∧ v ∉ s.cfg.vectors ∧
      t.haltReason = some .unsupportedTrap ∧ t.faultInfo = some s.fetched) := by
  cases exec_effect h with
  | halts => exact .inl ⟨rfl, rfl, rfl⟩
  | unsupportedOpcode hi => exact .inr (.inl ⟨hi, rfl, rfl⟩)
  | unsupportedTrap hvect => exact .inr (.inr ⟨_, rfl, hvect, rfl, rfl⟩)
  | writesDest | stores | jumps | calls | takesKey | takesKeyWithEcho | prints =>
    simp [hrun] at hhalt

/-- Settles O49: a fetch leaves the run state, the report and the parameters alone, so the executed
instruction is what halts the core. -/
theorem haltedIsEnteredOnlyByHaltOrFatalError : Obligations.HaltedIsEnteredOnlyByHaltOrFatalError := by
  intro s t hrun hstep hhalt
  rcases step_next_cases hstep with ⟨hhalted, -⟩ | ⟨-, -, hexec⟩
  · rw [hrun] at hhalted; cases hhalted
  · have hrun' : (fetch s).2.runState = .running := by rw [fetch_runState, hrun]
    simpa only [fetch_faultInfo, fetch_cfg, fetch_fetched] using exec_enters_halted hrun' hexec hhalt

/-- Settles O7, from the register file's read-after-write law. -/
theorem eachRegisterIsItsOwnCell : Obligations.EachRegisterIsItsOwnCell :=
  ⟨fun s r v => ⟨by simp, fun q hq => by simp [hq]⟩, fun r => by cases r <;> rfl⟩

/-! ### The old instruction register (R27) -/

/-- The poll looks at the keyboard cells and the console only. -/
theorem State.pollKey_with_mem_fetched (s : State) (m : Memory) (x : FaultInfo) :
    { s with mem := m, fetched := x }.pollKey = { s.pollKey with mem := m, fetched := x } := by
  unfold State.pollKey
  split
  · rfl
  · dsimp only
    split <;> rfl

theorem State.pollKey_with_fetched (s : State) (x : FaultInfo) :
    { s with fetched := x }.pollKey = { s.pollKey with fetched := x } := by
  simpa using s.pollKey_with_mem_fetched s.mem x

theorem memRead_with_fetched (a : Word) (s : State) (x : FaultInfo) :
    memRead a { s with fetched := x } = ((memRead a s).1, { (memRead a s).2 with fetched := x }) := by
  cases ht : target s.cfg a with
  | storage => rw [memRead_storage ht, memRead_storage (by exact ht)]; rfl
  | kbsr => rw [memRead_kbsr ht, memRead_kbsr (by exact ht), State.pollKey_with_fetched]
  | kbdr => rw [memRead_kbdr ht, memRead_kbdr (by exact ht), State.pollKey_with_fetched]

theorem fetch_with_fetched (s : State) (x : FaultInfo) : fetch { s with fetched := x } = fetch s := by
  simp only [fetch, memRead_with_fetched]

/-- Settles O56: fetch overwrites the instruction register before anything reads it. -/
theorem stepDoesNotReadTheOldInstructionRegister :
    Obligations.StepDoesNotReadTheOldInstructionRegister := by
  intro s x hrun
  simp only [step, fetch_with_fetched]
  rw [hrun]

end Sys2Proof.Machine
end

section
/-! Two machines that differ only in the storage cells behind the keyboard (10_state.md R25, D26):
each operation of the model takes related states to related states and gives both the same values. -/

namespace Sys2Proof.Machine

namespace SameToPrograms

variable {s t : State}

/-! ### What related states read alike -/

theorem regs_eq (h : SameToPrograms s t) : t.regs = s.regs := by rw [h.1]

theorem reg_eq (h : SameToPrograms s t) (r : Reg) : t.reg r = s.reg r := congrArg (·.get r) h.regs_eq

theorem pc_eq (h : SameToPrograms s t) : t.pc = s.pc := by rw [h.1]

theorem cond_eq (h : SameToPrograms s t) : t.cond = s.cond := by rw [h.1]

theorem kbReady_eq (h : SameToPrograms s t) : t.kbReady = s.kbReady := by rw [h.1]

theorem kbData_eq (h : SameToPrograms s t) : t.kbData = s.kbData := by rw [h.1]

theorem runState_eq (h : SameToPrograms s t) : t.runState = s.runState := by rw [h.1]

theorem fetched_eq (h : SameToPrograms s t) : t.fetched = s.fetched := by rw [h.1]

theorem input_eq (h : SameToPrograms s t) : t.input = s.input := by rw [h.1]

theorem abort_eq (h : SameToPrograms s t) : t.abort = s.abort := by rw [h.1]

theorem cfg_eq (h : SameToPrograms s t) : t.cfg = s.cfg := by rw [h.1]

theorem eaPC_eq (h : SameToPrograms s t) (off : Word) : eaPC off t = eaPC off s := by
  rw [eaPC, eaPC, h.pc_eq]

theorem eaBase_eq (h : SameToPrograms s t) (base : Reg) (off : Word) :
    eaBase base off t = eaBase base off s := by
  rw [eaBase, eaBase, h.reg_eq]

/-- Peek never sees the cells in which the two states differ (R37). -/
theorem peek_eq (h : SameToPrograms s t) (a : Word) : peek a t = peek a s := by
  unfold peek
  rw [h.cfg_eq]
  cases ht : target s.cfg a with
  | storage => exact h.2 a ht
  | kbsr => exact congrArg statusWord h.kbReady_eq
  | kbdr => exact h.kbData_eq

theorem putsScan_eq (h : SameToPrograms s t) (n : Nat) (a : Word) :
    putsScan t n a = putsScan s n a := by
  induction n generalizing a with
  | zero => rfl
  | succ n ih => rw [putsScan, putsScan, h.peek_eq, ih]

theorem putspScan_eq (h : SameToPrograms s t) (n : Nat) (a : Word) :
    putspScan t n a = putspScan s n a := by
  induction n generalizing a with
  | zero => rfl
  | succ n ih => rw [putspScan, putspScan, h.peek_eq, ih]

/-! ### Operations keep the relation -/

/-- An update that neither looks at memory nor touches it or the parameters keeps the relation. -/
theorem map (h : SameToPrograms s t) {f : State → State}
    (hmem : ∀ m, f { s with mem := m } = { f s with mem := m }) (hcfg : (f s).cfg = s.cfg) :
    SameToPrograms (f s) (f t) := by
  have hs : (f s).mem = s.mem := by
    rw [(hmem s.mem : f s = { f s with mem := s.mem })]
  have ht : f t = { f s with mem := t.mem } := by rw [h.1]; exact hmem t.mem
  refine ⟨by rw [ht], fun a ha => ?_⟩
  rw [hcfg] at ha
  rw [ht, State.cell, State.cell, hs]
  exact h.2 a ha

theorem setReg (h : SameToPrograms s t) (r : Reg) (v : Word) :
    SameToPrograms (s.setReg r v) (t.setReg r v) := h.map (f := (·.setReg r v)) (fun _ => rfl) rfl

theorem setPc (h : SameToPrograms s t) (a : Word) : SameToPrograms (s.setPc a) (t.setPc a) :=
  h.map (f := (·.setPc a)) (fun _ => rfl) rfl

theorem emit (h : SameToPrograms s t) (bs : List Byte) : SameToPrograms (s.emit bs) (t.emit bs) :=
  h.map (f := (·.emit bs)) (fun _ => rfl) rfl

theorem writeDest (h : SameToPrograms s t) (dr : Reg) (v : Word) :
    SameToPrograms (s.writeDest dr v) (t.writeDest dr v) :=
  h.map (f := (·.writeDest dr v)) (fun _ => rfl) rfl

theorem fatal (h : SameToPrograms s t) (reason : HaltReason) (info : FaultInfo) :
    SameToPrograms (s.fatal reason info) (t.fatal reason info) :=
  h.map (f := (·.fatal reason info)) (fun _ => rfl) rfl

theorem halt (h : SameToPrograms s t) : SameToPrograms s.halt t.halt :=
  h.map (f := State.halt) (fun _ => rfl) rfl

theorem link (h : SameToPrograms s t) : SameToPrograms s.link t.link := by
  rw [State.link, State.link, h.pc_eq]
  exact h.setReg .r7 s.pc

theorem pollKey (h : SameToPrograms s t) : SameToPrograms s.pollKey t.pollKey := by
  refine h.map (f := State.pollKey) (fun m => ?_) s.pollKey_cfg
  simpa using s.pollKey_with_mem_fetched m s.fetched

/-- MemRead gives both the same word and leaves them related (R32). -/
theorem memRead_agrees (h : SameToPrograms s t) (a : Word) :
    (memRead a t).1 = (memRead a s).1 ∧ SameToPrograms (memRead a s).2 (memRead a t).2 := by
  have htarget : target t.cfg a = target s.cfg a := by rw [h.cfg_eq]
  cases ht : target s.cfg a <;> rw [ht] at htarget
  case storage =>
    rw [memRead_storage ht, memRead_storage htarget]
    exact ⟨h.2 a ht, h⟩
  case kbsr =>
    rw [memRead_kbsr ht, memRead_kbsr htarget]
    exact ⟨congrArg statusWord h.pollKey.kbReady_eq, h.pollKey⟩
  case kbdr =>
    rw [memRead_kbdr ht, memRead_kbdr htarget]
    exact ⟨h.pollKey.kbData_eq,
      h.pollKey.map (f := ({ · with kbReady := false })) (fun _ => rfl) rfl⟩

/-- A store of one word to one storage cell of both (R35). -/
theorem setCell (h : SameToPrograms s t) (a v : Word) :
    SameToPrograms (s.setCell a v) (t.setCell a v) := by
  refine ⟨?_, fun b hb => ?_⟩
  · rw [h.1]; rfl
  · rw [State.cell_setCell, State.cell_setCell, h.2 b hb]

theorem memWrite_agrees (h : SameToPrograms s t) (a v : Word) :
    SameToPrograms (memWrite a v s) (memWrite a v t) := by
  have htarget : target t.cfg a = target s.cfg a := by rw [h.cfg_eq]
  by_cases ht : target s.cfg a = .storage
  · rw [memWrite_storage ht, memWrite_storage (htarget.trans ht)]
    exact h.setCell a v
  · rw [memWrite_device ht, memWrite_device (htarget ▸ ht)]
    exact h

theorem loadFrom_agrees (h : SameToPrograms s t) (dr : Reg) (ea : Word) :
    SameToPrograms (s.loadFrom dr ea) (t.loadFrom dr ea) := by
  obtain ⟨hword, hstate⟩ := h.memRead_agrees ea
  rw [State.loadFrom, State.loadFrom, hword]
  exact hstate.writeDest dr _

/-- GetKey answers both the same key and leaves them related, or answers neither (R91). -/
theorem getKey_agrees (h : SameToPrograms s t) :
    (getKey s = none ∧ getKey t = none) ∨
    ∃ k s₁ t₁, getKey s = some (k, s₁) ∧ getKey t = some (k, t₁) ∧ SameToPrograms s₁ t₁ := by
  simp only [getKey, h.kbReady_eq, h.kbData_eq, h.input_eq]
  split
  · exact .inr ⟨_, _, _, rfl, rfl,
      h.map (f := (·.withKeyboard false s.kbData s.input)) (fun _ => rfl) rfl⟩
  · split
    next k rest hwait =>
      exact .inr ⟨_, _, _, rfl, rfl,
        h.map (f := (·.withKeyboard s.kbReady (zext k) rest)) (fun _ => rfl) rfl⟩
    next => exact .inl ⟨rfl, rfl⟩

/-! ### The services and the instructions -/

theorem trapGetc_agrees (h : SameToPrograms s t) : ResultsAgree (trapGetc s) (trapGetc t) := by
  rcases h.getKey_agrees with ⟨hs, ht⟩ | ⟨k, s₁, t₁, hs, ht, h₁⟩ <;> simp only [trapGetc, hs, ht]
  · rfl
  · exact h₁.writeDest .r0 k

theorem trapIn_agrees (h : SameToPrograms s t) : ResultsAgree (trapIn s) (trapIn t) := by
  rcases (h.emit s.cfg.inPrompt).getKey_agrees with ⟨hs, ht⟩ | ⟨k, s₁, t₁, hs, ht, h₁⟩ <;>
    simp only [trapIn, h.cfg_eq, hs, ht]
  · rfl
  · exact (h₁.emit [lowByte k]).writeDest .r0 k

theorem putString_agrees (h : SameToPrograms s t) (scanned : Option (List Byte)) :
    ResultsAgree (s.putString scanned) (t.putString scanned) := by
  cases scanned with
  | none => rfl
  | some bs => exact h.emit bs

theorem trapOut_agrees (h : SameToPrograms s t) : ResultsAgree (trapOut s) (trapOut t) := by
  rw [trapOut, trapOut, h.reg_eq]
  exact h.emit _

theorem trapPuts_agrees (h : SameToPrograms s t) : ResultsAgree (trapPuts s) (trapPuts t) := by
  rw [trapPuts, trapPuts, h.reg_eq, h.putsScan_eq]
  exact h.putString_agrees _

theorem trapPutsp_agrees (h : SameToPrograms s t) : ResultsAgree (trapPutsp s) (trapPutsp t) := by
  rw [trapPutsp, trapPutsp, h.reg_eq, h.putspScan_eq]
  exact h.putString_agrees _

theorem trapHalt_agrees (h : SameToPrograms s t) : ResultsAgree (trapHalt s) (trapHalt t) := by
  rw [trapHalt, trapHalt, h.cfg_eq]
  exact (h.emit s.cfg.haltNotice).halt

theorem fatal_fetched_agrees (h : SameToPrograms s t) (reason : HaltReason) :
    ResultsAgree (.next (s.fatal reason s.fetched)) (.next (t.fatal reason t.fetched)) := by
  rw [h.fetched_eq]
  exact h.fatal reason s.fetched

/-- The dispatcher selects the same service on both sides (R90). -/
theorem execTrap_agrees (h : SameToPrograms s t) (vect : BitVec 8) :
    ResultsAgree (execTrap vect s) (execTrap vect t) := by
  unfold execTrap
  rw [h.cfg_eq]
  split; · exact h.trapGetc_agrees
  split; · exact h.trapOut_agrees
  split; · exact h.trapPuts_agrees
  split; · exact h.trapIn_agrees
  split; · exact h.trapPutsp_agrees
  split; · exact h.trapHalt_agrees
  exact h.fatal_fetched_agrees .unsupportedTrap

theorem execBr_agrees (h : SameToPrograms s t) (n z p : Bool) (off : Word) :
    ResultsAgree (execBr n z p off s) (execBr n z p off t) := by
  rw [execBr, execBr, h.cond_eq, h.eaPC_eq]
  split
  · exact h.setPc _
  · exact h

theorem execLdi_agrees (h : SameToPrograms s t) (dr : Reg) (off : Word) :
    ResultsAgree (execLdi dr off s) (execLdi dr off t) := by
  obtain ⟨hptr, h₁⟩ := h.memRead_agrees (eaPC off s)
  rw [execLdi, execLdi, h.eaPC_eq, hptr]
  exact h₁.loadFrom_agrees dr _

theorem execSti_agrees (h : SameToPrograms s t) (sr : Reg) (off : Word) :
    ResultsAgree (execSti sr off s) (execSti sr off t) := by
  obtain ⟨hptr, h₁⟩ := h.memRead_agrees (eaPC off s)
  rw [execSti, execSti, h.eaPC_eq, hptr, h₁.reg_eq]
  exact h₁.memWrite_agrees _ _

/-- Every instruction answers related states alike. -/
theorem exec_agrees (h : SameToPrograms s t) (i : Instr) : ResultsAgree (exec i s) (exec i t) := by
  cases i with
  | br n z p off => exact h.execBr_agrees n z p off
  | addR dr sr1 sr2 => simp only [exec, execAddR, h.reg_eq]; exact h.writeDest dr _
  | addI dr sr1 imm => simp only [exec, execAddI, h.reg_eq]; exact h.writeDest dr _
  | andR dr sr1 sr2 => simp only [exec, execAndR, h.reg_eq]; exact h.writeDest dr _
  | andI dr sr1 imm => simp only [exec, execAndI, h.reg_eq]; exact h.writeDest dr _
  | notR dr sr => simp only [exec, execNotR, h.reg_eq]; exact h.writeDest dr _
  | lea dr off => simp only [exec, execLea, h.eaPC_eq]; exact h.writeDest dr _
  | ld dr off => simp only [exec, execLd, h.eaPC_eq]; exact h.loadFrom_agrees dr _
  | ldr dr base off => simp only [exec, execLdr, h.eaBase_eq]; exact h.loadFrom_agrees dr _
  | ldi dr off => exact h.execLdi_agrees dr off
  | st sr off => simp only [exec, execSt, h.eaPC_eq, h.reg_eq]; exact h.memWrite_agrees _ _
  | str sr base off => simp only [exec, execStr, h.eaBase_eq, h.reg_eq]; exact h.memWrite_agrees _ _
  | sti sr off => exact h.execSti_agrees sr off
  | jmp base => simp only [exec, execJmp, h.reg_eq]; exact h.setPc _
  | jsr off => simp only [exec, execJsr, h.eaPC_eq]; exact h.link.setPc _
  | jsrr base => simp only [exec, execJsrr, h.link.reg_eq]; exact h.link.setPc _
  | rti => exact h.fatal_fetched_agrees .unsupportedOpcode
  | res => exact h.fatal_fetched_agrees .unsupportedOpcode
  | trap vect => exact h.execTrap_agrees vect

/-- Fetch reads the same word on both sides and leaves them related (R74). -/
theorem fetch_agrees (h : SameToPrograms s t) :
    (fetch t).1 = (fetch s).1 ∧ SameToPrograms (fetch s).2 (fetch t).2 := by
  obtain ⟨hword, hstate⟩ := h.memRead_agrees s.pc
  simp only [fetch, h.pc_eq, hword]
  exact ⟨trivial, hstate.map (f := ({ · with pc := s.pc + 1, fetched := ⟨_, s.pc⟩ })) (fun _ => rfl) rfl⟩

end SameToPrograms

/-- Settles O55: fetch and every instruction keep the relation and give both machines the same word. -/
theorem cellsBehindTheKeyboardAreUnreachable : Obligations.CellsBehindTheKeyboardAreUnreachable := by
  intro s t h
  obtain ⟨hword, hfetch⟩ := h.fetch_agrees
  rcases step_cases s with ⟨hrun, hs⟩ | ⟨hrun, habort, hs⟩ | ⟨hrun, habort, hs⟩
  · rw [hs, step_halted (h.runState_eq.trans hrun)]
    exact h
  · rw [hs, step, h.runState_eq, h.abort_eq, hrun, habort]
    rfl
  · rw [hs, step_running (h.runState_eq.trans hrun) (h.abort_eq.trans habort), hword]
    exact hfetch.exec_agrees _

end Sys2Proof.Machine
end

section
/-! What the host holds at its interface (00_scope.md R8, R9): an operation may take answers from the
front of the console's list, and leaves the parameters and the termination request as they are. -/

namespace Sys2Proof.Machine

/-- From s to t the host's side lost at most some answers from the front of the console's list. -/
structure TakesAnswers (s t : State) : Prop where
  input_suffix : t.input <:+ s.input
  cfg_eq : t.cfg = s.cfg
  abort_eq : t.abort = s.abort

namespace TakesAnswers

variable {s t u : State}

theorem of_eq (hinput : t.input = s.input) (hcfg : t.cfg = s.cfg) (habort : t.abort = s.abort) :
    TakesAnswers s t :=
  ⟨hinput ▸ List.suffix_rfl, hcfg, habort⟩

theorem trans (hst : TakesAnswers s t) (htu : TakesAnswers t u) : TakesAnswers s u :=
  ⟨htu.input_suffix.trans hst.input_suffix, htu.cfg_eq.trans hst.cfg_eq,
    htu.abort_eq.trans hst.abort_eq⟩

theorem writeDest (h : TakesAnswers s t) (dr : Reg) (v : Word) : TakesAnswers s (t.writeDest dr v) :=
  h.trans (of_eq rfl rfl rfl)

theorem emit (h : TakesAnswers s t) (bs : List Byte) : TakesAnswers s (t.emit bs) :=
  h.trans (of_eq rfl rfl rfl)

end TakesAnswers

/-! ### The operations that meet the console (R33, R34, R91) -/

theorem State.pollKey_input_suffix (s : State) : s.pollKey.input <:+ s.input := by
  rcases s.pollKey_cases with ⟨-, h⟩ | ⟨-, k, rest, hinput, h⟩ | ⟨-, rest, hinput, h⟩ | ⟨-, -, h⟩
  · rw [h]
  · rw [h, hinput]; exact List.suffix_cons (some k) rest
  · rw [h, hinput]; exact List.suffix_cons none rest
  · rw [h]

theorem memRead_takesAnswers (a : Word) (s : State) : TakesAnswers s (memRead a s).2 := by
  refine ⟨?_, memRead_cfg a s, memRead_abort a s⟩
  rcases memRead_state_cases a s with ⟨-, h⟩ | ⟨-, h⟩ | ⟨-, h⟩ <;> rw [h]
  · exact s.pollKey_input_suffix
  · exact s.pollKey_input_suffix

theorem fetch_takesAnswers (s : State) : TakesAnswers s (fetch s).2 :=
  (memRead_takesAnswers s.pc s).trans (.of_eq rfl rfl rfl)

theorem memWrite_takesAnswers (a v : Word) (s : State) : TakesAnswers s (memWrite a v s) :=
  .of_eq (memWrite_input a v s) (memWrite_cfg a v s) (memWrite_abort a v s)

theorem loadFrom_takesAnswers (s : State) (dr : Reg) (ea : Word) : TakesAnswers s (s.loadFrom dr ea) :=
  (memRead_takesAnswers ea s).writeDest dr _

/-- KeyWait takes the answers passed over and the key. -/
theorem keyWait_suffix {input rest : List (Option Byte)} {k : Byte}
    (h : keyWait input = some (k, rest)) : rest <:+ input := by
  obtain ⟨m, rfl⟩ := keyWait_eq_some.mp h
  exact (List.suffix_cons (some k) rest).trans (List.suffix_append _ _)

theorem getKey_takesAnswers {s t : State} {k : Word} (h : getKey s = some (k, t)) :
    TakesAnswers s t := by
  rcases getKey_cases s with ⟨-, hkey⟩ | ⟨-, _, _, hwait, hkey⟩ | ⟨-, -, hkey⟩ <;>
    rw [hkey] at h <;> cases h
  · exact .of_eq rfl rfl rfl
  · exact ⟨keyWait_suffix hwait, rfl, rfl⟩

/-! ### The services, the instructions and the step -/

theorem trapGetc_takesAnswers {s t : State} (h : trapGetc s = .next t) : TakesAnswers s t := by
  unfold trapGetc at h
  split at h <;> cases h
  next hkey => exact (getKey_takesAnswers hkey).writeDest .r0 _

theorem trapIn_takesAnswers {s t : State} (h : trapIn s = .next t) : TakesAnswers s t := by
  unfold trapIn at h
  split at h <;> cases h
  next hkey =>
    have hprompt : TakesAnswers s (s.emit s.cfg.inPrompt) := .of_eq rfl rfl rfl
    exact ((hprompt.trans (getKey_takesAnswers hkey)).emit _).writeDest .r0 _

theorem putString_takesAnswers {s t : State} {scanned : Option (List Byte)}
    (h : s.putString scanned = .next t) : TakesAnswers s t := by
  rcases putString_cases s scanned with ⟨bs, -, hput⟩ | ⟨-, hput⟩ <;> rw [hput] at h <;> cases h
  exact .of_eq rfl rfl rfl

/-- Of the six services only GETC and IN take answers. -/
theorem execTrap_takesAnswers {vect : BitVec 8} {s t : State} (h : execTrap vect s = .next t) :
    TakesAnswers s t := by
  rcases execTrap_cases vect s with ⟨-, hv⟩ | ⟨-, hv⟩ | ⟨-, hv⟩ | ⟨-, hv⟩ | ⟨-, hv⟩ | ⟨-, hv⟩ |
    ⟨-, hv⟩ <;> rw [hv] at h
  · exact trapGetc_takesAnswers h
  · cases h; exact .of_eq rfl rfl rfl
  · exact putString_takesAnswers h
  · exact trapIn_takesAnswers h
  · exact putString_takesAnswers h
  · cases h; exact .of_eq rfl rfl rfl
  · cases h; exact .of_eq rfl rfl rfl

theorem exec_takesAnswers {i : Instr} {s t : State} (h : exec i s = .next t) : TakesAnswers s t := by
  cases i with
  | addR | addI | andR | andI | notR | lea | jmp | jsr | jsrr | rti | res =>
    cases h; exact .of_eq rfl rfl rfl
  | br => cases h; split <;> exact .of_eq rfl rfl rfl
  | ld | ldr => cases h; exact loadFrom_takesAnswers s _ _
  | ldi => cases h; exact (memRead_takesAnswers _ s).trans (loadFrom_takesAnswers _ _ _)
  | st | str => cases h; exact memWrite_takesAnswers _ _ s
  | sti => cases h; exact (memRead_takesAnswers _ s).trans (memWrite_takesAnswers _ _ _)
  | trap => exact execTrap_takesAnswers h

theorem step_takesAnswers {s t : State} (h : step s = .next t) : TakesAnswers s t := by
  rcases step_next_cases h with ⟨-, rfl⟩ | ⟨-, -, hexec⟩
  · exact .of_eq rfl rfl rfl
  · exact (fetch_takesAnswers s).trans (exec_takesAnswers hexec)

/-- Settles O52: the fetch and the executed instruction each take answers from the front only. -/
theorem consoleAnswersAreTakenInOrder : Obligations.ConsoleAnswersAreTakenInOrder := by
  intro s t hstep
  obtain ⟨⟨taken, htaken⟩, hcfg, habort⟩ := step_takesAnswers hstep
  exact ⟨⟨taken, htaken.symm⟩, hcfg, habort⟩

end Sys2Proof.Machine
end

section
/-! The operate instructions (40_operate.md): setcc on the value written (R69), and ADD, AND and NOT
as writes of DR (R70 to R72). -/

namespace Sys2Proof.Machine

/-! ### setcc (R69) -/

/-- The flag computed from the zero test and bit 15 is the sign of the signed value. -/
theorem Cond.ofValue_shows (v : Word) : (Cond.ofValue v).Shows v := by
  have hzero : v.toInt = 0 ↔ v = 0#16 := by rw [← BitVec.toInt_inj, BitVec.toInt_zero]
  have hmsb : v.msb = v.getLsbD 15 := BitVec.msb_eq_getLsbD_last v
  rcases Cond.ofValue_cases v with ⟨hv, hc⟩ | ⟨hv, hbit, hc⟩ | ⟨hv, hbit, hc⟩ <;> rw [Cond.Shows, hc]
  · simp [hzero.mpr hv]
  · have hneg : v.toInt < 0 := BitVec.toInt_neg_of_msb_true (hmsb.trans hbit)
    simp only [reduceCtorEq, false_iff, true_iff]
    omega
  · have hnonneg : 0 ≤ v.toInt := BitVec.toInt_nonneg_of_msb_false (hmsb.trans hbit)
    have hne : v.toInt ≠ 0 := mt hzero.mp hv
    simp only [reduceCtorEq, false_iff, true_iff]
    omega

theorem Cond.ofValue_eq_n_iff (v : Word) : Cond.ofValue v = .n ↔ v ≠ 0 ∧ v.getLsbD 15 = true := by
  rcases Cond.ofValue_cases v with ⟨hv, hc⟩ | ⟨hv, hbit, hc⟩ | ⟨hv, hbit, hc⟩ <;> rw [hc]
  · exact iff_of_false nofun fun h => h.1 hv
  · exact iff_of_true rfl ⟨hv, hbit⟩
  · exact iff_of_false nofun fun h => Bool.false_ne_true (hbit.symm.trans h.2)

/-! ### The write of DR (R20) -/

theorem State.reg_writeDest_same (s : State) (dr : Reg) (v : Word) : (s.writeDest dr v).reg dr = v :=
  RegFile.get_set_same s.regs dr v

theorem State.writeDest_shows (s : State) (dr : Reg) (v : Word) :
    (s.writeDest dr v).cond.Shows ((s.writeDest dr v).reg dr) := by
  rw [State.reg_writeDest_same]
  exact Cond.ofValue_shows v

theorem State.writeDest_destFrame (s : State) (dr : Reg) (v : Word) :
    DestFrame dr s (s.writeDest dr v) := by
  refine ⟨fun q hq => ?_, rfl, ⟨rfl, rfl, rfl⟩, s.cell_writeDest dr v, rfl,
    ⟨rfl, rfl, rfl, rfl, rfl, rfl⟩⟩
  rw [State.reg_writeDest, if_neg hq]

/-- An instruction with a DR that completes ends in the write of DR. -/
theorem exec_ends_in_writeDest {i : Instr} {dr : Reg} {s t : State} (hdest : destOf i = some dr)
    (h : exec i s = .next t) : ∃ (s₁ : State) (v : Word), t = s₁.writeDest dr v := by
  cases exec_effect h with
  | writesDest _ _ _ v hdr =>
    cases hdr.symm.trans hdest
    exact ⟨_, v, rfl⟩
  | stores _ _ _ _ _ hi => cases i <;> simp [destOf, Instr.opcode] at hdest hi
  | jumps _ hi => obtain ⟨_, _, _, _, rfl⟩ | ⟨_, rfl⟩ := hi <;> cases hdest
  | calls _ hi => obtain ⟨_, rfl⟩ | ⟨_, rfl⟩ := hi <;> cases hdest
  | unsupportedOpcode hi => obtain rfl | rfl := hi <;> cases hdest
  | takesKey | takesKeyWithEcho | prints | halts | unsupportedTrap => cases hdest

/-- Settles O8: setcc gives the sign of the value, and what sets flags ends in the write of DR. -/
theorem setccFollowsTheSign : Obligations.SetccFollowsTheSign := by
  refine ⟨fun s v => ⟨Cond.ofValue_shows v, Cond.ofValue_eq_n_iff v, rfl⟩, ?_⟩
  intro i dr s t hdest hexec
  obtain ⟨s₁, v, rfl⟩ := exec_ends_in_writeDest hdest hexec
  exact s₁.writeDest_shows dr v

/-! ### ADD, AND and NOT (R70, R71, R72) -/

/-- An instruction whose whole effect is the write of v to DR completes with v in DR, cond from it
and everything else as it was. -/
theorem exec_completes_of_writeDest {i : Instr} {dr : Reg} {s : State} {v : Word}
    (h : exec i s = .next (s.writeDest dr v)) :
    ∃ t, exec i s = .next t ∧ t.reg dr = v ∧ t.cond.Shows (t.reg dr) ∧ DestFrame dr s t :=
  ⟨_, h, s.reg_writeDest_same dr v, s.writeDest_shows dr v, s.writeDest_destFrame dr v⟩

/-- Settles O11: both forms write the modular sum of operands read from the old state. -/
theorem addWritesTheSumModulo : Obligations.AddWritesTheSumModulo := by
  constructor
  · intro dr sr1 sr2 s
    obtain ⟨t, hexec, hdr, hrest⟩ := exec_completes_of_writeDest (i := .addR dr sr1 sr2) (s := s) rfl
    exact ⟨t, hexec, hdr ▸ toNat_add16 (s.reg sr1) (s.reg sr2), hrest⟩
  · intro dr sr1 imm s
    obtain ⟨t, hexec, hdr, hrest⟩ := exec_completes_of_writeDest (i := .addI dr sr1 imm) (s := s) rfl
    exact ⟨t, hexec, hdr ▸ toNat_add16 (s.reg sr1) imm, hrest⟩

/-- Settles O12: both forms write the AND, whose bits are the ANDs of the operands' bits. -/
theorem andWritesTheBitwiseAnd : Obligations.AndWritesTheBitwiseAnd := by
  constructor
  · intro dr sr1 sr2 s
    obtain ⟨t, hexec, hdr, hrest⟩ := exec_completes_of_writeDest (i := .andR dr sr1 sr2) (s := s) rfl
    exact ⟨t, hexec, fun j _ => hdr ▸ getLsbD_and16 (s.reg sr1) (s.reg sr2) j, hrest⟩
  · intro dr sr1 imm s
    obtain ⟨t, hexec, hdr, hrest⟩ := exec_completes_of_writeDest (i := .andI dr sr1 imm) (s := s) rfl
    exact ⟨t, hexec, fun j _ => hdr ▸ getLsbD_and16 (s.reg sr1) imm j, hrest⟩

/-- Settles O13: NOT writes the complement, each bit the inverse of SR's. -/
theorem notWritesTheComplement : Obligations.NotWritesTheComplement := by
  intro dr sr s
  obtain ⟨t, hexec, hdr, hrest⟩ := exec_completes_of_writeDest (i := .notR dr sr) (s := s) rfl
  exact ⟨t, hexec, fun j hj => hdr ▸ getLsbD_not16 (s.reg sr) hj, hrest⟩

end Sys2Proof.Machine
end

section
/-! The control transfers (41_control.md): BR, JMP and JSR as writes of pc, JSR with its link in R7,
and that no other instruction moves pc (R75). -/

namespace Sys2Proof.Machine

/-! ### The condition of BR (R76) -/

theorem branchTaken_iff {n z p : Bool} {c : Cond} : branchTaken n z p c = true ↔
    (n = true ∧ c = .n) ∨ (z = true ∧ c = .z) ∨ (p = true ∧ c = .p) := by
  simp only [branchTaken, Bool.or_eq_true, Bool.and_eq_true, decide_eq_true_eq, or_assoc]

theorem branchTaken_none (c : Cond) : branchTaken false false false c = false := rfl

/-- cond always holds one of n, z, p (R18), so a request of all three is met. -/
theorem branchTaken_all (c : Cond) : branchTaken true true true c = true := by
  cases c <;> rfl

/-! ### What a control transfer leaves unchanged -/

/-- The frame of a control transfer leaves open the registers and pc only. -/
theorem jumpFrame_of_regs_pc (s : State) (regs : RegFile) (pc' : Word) :
    JumpFrame s { s with regs := regs, pc := pc' } :=
  ⟨rfl, ⟨rfl, rfl, rfl⟩, fun _ => rfl, rfl, ⟨rfl, rfl, rfl, rfl, rfl, rfl⟩⟩

theorem State.setPc_sameRegs (s : State) (pc' : Word) : SameRegs s (s.setPc pc') :=
  s.reg_setPc pc'

theorem State.setPc_jumpFrame (s : State) (pc' : Word) : JumpFrame s (s.setPc pc') :=
  jumpFrame_of_regs_pc s s.regs pc'

theorem State.reg_link_r7 (s : State) : s.link.reg .r7 = s.pc := rfl

theorem State.link_sameRegsBut (s : State) : SameRegsBut .r7 s s.link := fun q hq => by
  rw [State.link, State.reg_setReg, if_neg hq]

theorem State.link_setPc_jumpFrame (s : State) (pc' : Word) : JumpFrame s (s.link.setPc pc') :=
  jumpFrame_of_regs_pc s s.link.regs pc'

/-! ### BR, JMP and JSR (R76, R77, R78) -/

/-- BR as one write of pc: not taken, it writes the pc that is there. -/
theorem exec_br (n z p : Bool) (off : Word) (s : State) : exec (.br n z p off) s =
    .next (s.setPc (if branchTaken n z p s.cond then eaPC off s else s.pc)) := by
  cases h : branchTaken n z p s.cond <;> simp only [exec, execBr, h] <;> rfl

/-- Settles O14: the branch condition of the model is the requested one, and BR writes pc only. -/
theorem branchTakenIffRequestedConditionHolds :
    Obligations.BranchTakenIffRequestedConditionHolds := by
  intro n z p off s
  refine ⟨_, exec_br n z p off s, fun h => ?_, fun h => ?_, ?_, ?_,
    s.setPc_sameRegs _, s.setPc_jumpFrame _⟩
  · exact if_pos (branchTaken_iff.mpr h)
  · exact if_neg (mt branchTaken_iff.mp h)
  · rintro ⟨rfl, rfl, rfl⟩
    rw [branchTaken_none]; rfl
  · rintro ⟨rfl, rfl, rfl⟩
    exact if_pos (branchTaken_all s.cond)

/-- Settles O15: JMP's whole effect is one write of pc. -/
theorem jmpGoesToTheBaseRegister : Obligations.JmpGoesToTheBaseRegister := fun base s =>
  ⟨s.setPc (s.reg base), rfl, rfl, s.setPc_sameRegs _, s.setPc_jumpFrame _⟩

/-- Settles O16: JSR links in R7, the only register written, and then writes pc. -/
theorem jsrLinksAndJumps : Obligations.JsrLinksAndJumps := fun off s =>
  ⟨s.link.setPc (eaPC off s), rfl, s.reg_link_r7, rfl, s.link_sameRegsBut, s.link_setPc_jumpFrame _⟩

/-! ### Who moves pc (R75) -/

@[simp] theorem State.withKeyboard_pc (s : State) (ready : Bool) (data : Word)
    (input : List (Option Byte)) : (s.withKeyboard ready data input).pc = s.pc := rfl

/-- Settles O48: of the effects of an instruction only jumps and calls write pc. -/
theorem pcMovesOnlyInControlTransfers : Obligations.PcMovesOnlyInControlTransfers := by
  intro i s t h hne
  cases exec_effect h with
  | jumps _ hi => exact hi.elim .inl fun hjmp => .inr (.inl hjmp)
  | calls _ hi => exact .inr (.inr hi)
  | writesDest | stores | takesKey | takesKeyWithEcho | prints | halts | unsupportedTrap
  | unsupportedOpcode => simp at hne

end Sys2Proof.Machine
end

section
/-! The loads and stores (42_load_store.md): LD, LDI and LDR as a memory read and a write of DR (R82
to R84), LEA as a write of DR (R85), and ST, STI and STR as one memory write (R86 to R88). -/

namespace Sys2Proof.Machine

/-! ### After reads that moved only the keyboard (R32)

An indirect access acts in the state s₁ that its pointer read left; a direct one in s itself. -/

theorem State.eq_withKeyboard_self (s : State) :
    ∃ ready data input, s = s.withKeyboard ready data input :=
  ⟨s.kbReady, s.kbData, s.input, rfl⟩

section
variable {s s₁ : State} (hread : ∃ ready data input, s₁ = s.withKeyboard ready data input)
include hread

theorem memRead_eq_withKeyboard_of_read (ea : Word) :
    ∃ ready data input, (memRead ea s₁).2 = s.withKeyboard ready data input := by
  obtain ⟨_, _, _, rfl⟩ := hread
  exact memRead_eq_withKeyboard ea (s.withKeyboard _ _ _)

/-- A load's frame is the frame of the write of DR in s₁: but for the keyboard, s₁ is s. -/
theorem writeDest_loadFrame (dr : Reg) (v : Word) : LoadFrame dr s₁ s (s₁.writeDest dr v) := by
  obtain ⟨_, _, _, rfl⟩ := hread
  exact State.writeDest_destFrame (s.withKeyboard _ _ _) dr v

/-- MemWrite reaches no more than the addressed cell (R35). -/
theorem memWrite_storeFrame (ea v : Word) : StoreFrame ea s₁ s (memWrite ea v s₁) := by
  have hcells : SameCellsBut ea s₁ (memWrite ea v s₁) := fun b hb => by
    rw [memWrite_cell, if_neg fun h => hb h.1]
  obtain ⟨_, _, _, rfl⟩ := hread
  exact ⟨memWrite_reg ea v _, memWrite_cond ea v _, memWrite_pc ea v _,
    ⟨memWrite_kbReady ea v _, memWrite_kbData ea v _, memWrite_input ea v _⟩, hcells,
    memWrite_output ea v _, memWrite_runState ea v _, memWrite_haltReason ea v _,
    memWrite_faultInfo ea v _, memWrite_fetched ea v _, memWrite_abort ea v _, memWrite_cfg ea v _⟩

/-- An instruction that ends in the load of DR from ea, in s₁, completes with what MemRead gives
there, cond from it and the keyboard as that read left it. -/
theorem exec_completes_of_loadFrom {i : Instr} {dr : Reg} {ea : Word}
    (h : exec i s = .next (s₁.loadFrom dr ea)) :
    ∃ t, exec i s = .next t ∧ t.reg dr = (memRead ea s₁).1 ∧ t.cond.Shows (t.reg dr) ∧
      LoadFrame dr (memRead ea s₁).2 s t :=
  ⟨_, h, State.reg_writeDest_same _ dr _, State.writeDest_shows _ dr _,
    writeDest_loadFrame (memRead_eq_withKeyboard_of_read hread ea) dr _⟩

/-- An instruction that ends in MemWrite of v at ea, in s₁, completes with v stored there if ea is
storage, and with nothing done to s₁ if it is a keyboard cell (D10). -/
theorem exec_completes_of_memWrite {i : Instr} {ea v : Word}
    (h : exec i s = .next (memWrite ea v s₁)) :
    ∃ t, exec i s = .next t ∧ StoreFrame ea s₁ s t ∧
      (target s.cfg ea = .storage → t.cell ea = v) ∧ (target s.cfg ea ≠ .storage → t = s₁) := by
  have hcfg : s₁.cfg = s.cfg := by obtain ⟨_, _, _, rfl⟩ := hread; rfl
  refine ⟨_, h, memWrite_storeFrame hread ea v, fun hstorage => ?_, fun hdevice => ?_⟩
  · rw [memWrite_cell, hcfg, if_pos ⟨rfl, hstorage⟩]
  · exact memWrite_device (hcfg ▸ hdevice) v

end

/-! ### The loads (R82 to R85) -/

theorem LoadFrame.sameKeyboard {dr : Reg} {s₁ s t : State} (h : LoadFrame dr s₁ s t) :
    SameKeyboard s₁ t := by
  obtain ⟨-, -, hkeyboard, -⟩ := h
  exact hkeyboard

/-- A load from ea, direct: from storage it gives the stored word and no device is touched. -/
theorem exec_completes_of_direct_load {i : Instr} {dr : Reg} {ea : Word} {s : State}
    (h : exec i s = .next (s.loadFrom dr ea)) :
    ∃ t, exec i s = .next t ∧ t.reg dr = (memRead ea s).1 ∧ t.cond.Shows (t.reg dr) ∧
      LoadFrame dr (memRead ea s).2 s t ∧
      (target s.cfg ea = .storage → t.reg dr = s.cell ea ∧ SameKeyboard s t) := by
  obtain ⟨t, hexec, hdr, hcond, hframe⟩ := exec_completes_of_loadFrom s.eq_withKeyboard_self h
  refine ⟨t, hexec, hdr, hcond, hframe, fun hstorage => ?_⟩
  rw [memRead_storage hstorage] at hdr hframe
  exact ⟨hdr, hframe.sameKeyboard⟩

/-- Settles O24: LD is the direct load from pc + offset. -/
theorem ldLoadsFromThePcRelativeAddress : Obligations.LdLoadsFromThePcRelativeAddress :=
  fun _ _ _ => exec_completes_of_direct_load rfl

/-- Settles O25: LDI is a load in the state that the pointer read left, and from storage neither of
its two reads moves the keyboard. -/
theorem ldiReadsThePointerThenTheValue : Obligations.LdiReadsThePointerThenTheValue := by
  intro dr off s
  obtain ⟨t, hexec, hdr, hcond, hframe⟩ :=
    exec_completes_of_loadFrom (i := .ldi dr off) (memRead_eq_withKeyboard (eaPC off s) s) rfl
  refine ⟨t, hexec, ⟨hdr, hframe⟩, hcond, fun hpointer hvalue => ?_⟩
  rw [memRead_storage hpointer, memRead_storage hvalue] at hdr hframe
  exact ⟨hdr, hframe.sameKeyboard⟩

/-- Settles O26: LDR is the direct load from base + offset, an address computed in the old state. -/
theorem ldrLoadsFromBasePlusOffset : Obligations.LdrLoadsFromBasePlusOffset :=
  fun _ _ _ _ => exec_completes_of_direct_load rfl

/-- Settles O27: LEA's whole effect is the write of the address to DR, as of an operate instruction. -/
theorem leaComputesTheAddressOnly : Obligations.LeaComputesTheAddressOnly := by
  intro dr off s
  obtain ⟨t, hexec, hdr, hrest⟩ := exec_completes_of_writeDest (i := .lea dr off) (s := s) rfl
  exact ⟨t, hexec, hdr ▸ toNat_add16 s.pc off, hrest⟩

/-! ### The stores (R86 to R88) -/

/-- Settles O28: ST is one MemWrite at pc + offset. -/
theorem stStoresAtThePcRelativeAddress : Obligations.StStoresAtThePcRelativeAddress :=
  fun _ _ s => exec_completes_of_memWrite s.eq_withKeyboard_self rfl

/-- Settles O29: STI is one MemWrite at the pointer, in the state that the pointer read left, where
SR still holds its old word. -/
theorem stiStoresThroughThePointer : Obligations.StiStoresThroughThePointer := by
  intro sr off s
  obtain ⟨t, hexec, hframe, hstored, hdiscarded⟩ :=
    exec_completes_of_memWrite (i := .sti sr off) (memRead_eq_withKeyboard (eaPC off s) s) rfl
  rw [memRead_reg] at hstored
  refine ⟨t, hexec, ⟨hframe, hstored, hdiscarded⟩, fun hpointer => ?_⟩
  obtain ⟨-, -, -, hkeyboard, -⟩ := hframe
  rwa [memRead_storage hpointer] at hkeyboard

/-- Settles O30: STR is one MemWrite at base + offset, an address computed in the old state. -/
theorem strStoresAtBasePlusOffset : Obligations.StrStoresAtBasePlusOffset :=
  fun _ _ _ s => exec_completes_of_memWrite s.eq_withKeyboard_self rfl

end Sys2Proof.Machine
end

section
/-! The dispatcher's table for well-formed parameters (43_trap.md R90, D5), and the services that only
write to the console: OUT (R93) and HALT (R97). -/

namespace Sys2Proof.Machine

/-! ### The table (R90) -/

/-- With distinct vectors (D5) each of the six selects its own service. -/
theorem exec_trap_selects_service {s : State} (hwf : s.cfg.wf = true) :
    exec (.trap s.cfg.trapGetc) s = trapGetc s ∧ exec (.trap s.cfg.trapOut) s = trapOut s ∧
    exec (.trap s.cfg.trapPuts) s = trapPuts s ∧ exec (.trap s.cfg.trapIn) s = trapIn s ∧
    exec (.trap s.cfg.trapPutsp) s = trapPutsp s ∧ exec (.trap s.cfg.trapHalt) s = trapHalt s := by
  obtain ⟨-, hdistinct⟩ := Config.wf_distinct hwf
  -- Each vector differs from those the table tests before it.
  have hearlier : s.cfg.vectors.Pairwise fun u v => v ≠ u := hdistinct.imp Ne.symm
  simp only [Config.vectors, List.pairwise_cons, List.forall_mem_cons] at hearlier
  obtain ⟨hgetc, hout, hputs, hin, hputsp, -⟩ := hearlier
  simp [exec, execTrap, hgetc, hout, hputs, hin, hputsp]

/-! ### OUT and HALT (R93, R97) -/

theorem toNat_lowByte (v : Word) : (lowByte v).toNat = v.toNat % 256 := by
  simp [lowByte]

theorem State.emit_printFrame (s : State) (bs : List Byte) : PrintFrame s (s.emit bs) :=
  ⟨s.reg_emit bs, rfl, rfl, ⟨rfl, rfl, rfl⟩, s.cell_emit bs, ⟨rfl, rfl, rfl, rfl, rfl, rfl⟩⟩

/-- Settles O35: the vector selects OUT, whose whole effect is one byte of output. -/
theorem outWritesTheLowByteOfR0 : Obligations.OutWritesTheLowByteOfR0 := by
  intro s hwf
  obtain ⟨-, hexec, -⟩ := exec_trap_selects_service hwf
  exact ⟨_, hexec, ⟨_, rfl, toNat_lowByte (s.reg .r0)⟩, s.emit_printFrame _⟩

/-- Settles O39: the vector selects HALT, which writes the notice and then only ends the run. -/
theorem haltWritesTheNoticeAndStops : Obligations.HaltWritesTheNoticeAndStops := by
  intro s hwf
  obtain ⟨-, -, -, -, -, hexec⟩ := exec_trap_selects_service hwf
  obtain ⟨hregs, hcond, hpc, hkeyboard, hcells, -, -, hinfo, hfetched, habort, hcfg⟩ :=
    s.emit_printFrame s.cfg.haltNotice
  exact ⟨_, hexec, rfl, rfl, rfl, hregs, hcond, hpc, hkeyboard, hcells, hinfo, hfetched, habort, hcfg⟩

end Sys2Proof.Machine
end

section
/-! Console output (10_state.md R28, 60_exceptions.md R112, D31): it only grows, and only in the
services that write to the console. -/

namespace Sys2Proof.Machine

@[simp] theorem State.withKeyboard_output (s : State) (ready : Bool) (data : Word)
    (input : List (Option Byte)) : (s.withKeyboard ready data input).output = s.output := rfl

/-- Of the effects of an instruction only those of IN, of the printing services and of HALT write to
the console, and each appends. -/
theorem exec_output_grows {i : Instr} {s t : State} (h : exec i s = .next t) :
    ∃ bs, t.output = s.output ++ bs ∧ (bs ≠ [] →
      ∃ v ∈ [s.cfg.trapOut, s.cfg.trapPuts, s.cfg.trapIn, s.cfg.trapPutsp, s.cfg.trapHalt],
        i = .trap v) := by
  cases exec_effect h with
  | writesDest | stores | jumps | calls | takesKey | unsupportedTrap | unsupportedOpcode =>
    exact ⟨[], by simp⟩
  | takesKeyWithEcho _ _ _ k =>
    exact ⟨s.cfg.inPrompt ++ [lowByte k], by simp, fun _ => ⟨s.cfg.trapIn, by simp, rfl⟩⟩
  | @prints vect bs hvect =>
    have hlisted : [s.cfg.trapOut, s.cfg.trapPuts, s.cfg.trapPutsp] ⊆
        [s.cfg.trapOut, s.cfg.trapPuts, s.cfg.trapIn, s.cfg.trapPutsp, s.cfg.trapHalt] := by simp
    exact ⟨bs, rfl, fun _ => ⟨vect, hlisted hvect, rfl⟩⟩
  | halts => exact ⟨s.cfg.haltNotice, rfl, fun _ => ⟨s.cfg.trapHalt, by simp, rfl⟩⟩

/-- Settles O51: a halted core does nothing and a fetch writes nothing, so what a step writes its
executed instruction does. -/
theorem outputGrowsOnlyInTheConsoleServices : Obligations.OutputGrowsOnlyInTheConsoleServices := by
  intro s t hstep
  rcases step_next_cases hstep with ⟨-, rfl⟩ | ⟨-, -, hexec⟩
  · exact ⟨[], by simp⟩
  · simpa only [fetch_output, fetch_cfg] using exec_output_grows hexec

end Sys2Proof.Machine
end

section
/-! How a step stops (60_exceptions.md R109, 70_reset_and_hazards.md R124): of the instructions only
GETC, IN, PUTS and PUTSP can fail to complete, and no instruction is without a meaning. -/

namespace Sys2Proof.Machine

/-- The fault with which a vector's service can fail to complete (R109): a hold in GETC, which has
written nothing, or in IN, which has written its prompt, and a hang in a string service. -/
def ServiceFault (c : Config) (vect : BitVec 8) (f : Fault) : Prop :=
  (vect = c.trapGetc ∧ f = .keyWaitHold []) ∨ (vect = c.trapIn ∧ f = .keyWaitHold c.inPrompt) ∨
  ((vect = c.trapPuts ∨ vect = c.trapPutsp) ∧ f = .stringHang)

theorem trapGetc_completes_or_holds (s : State) :
    (∃ t, trapGetc s = .next t) ∨ trapGetc s = .fault (.keyWaitHold []) := by
  unfold trapGetc
  split
  · exact .inl ⟨_, rfl⟩
  · exact .inr rfl

theorem trapIn_completes_or_holds (s : State) :
    (∃ t, trapIn s = .next t) ∨ trapIn s = .fault (.keyWaitHold s.cfg.inPrompt) := by
  unfold trapIn
  split
  · exact .inl ⟨_, rfl⟩
  · exact .inr rfl

theorem putString_completes_or_hangs (s : State) (scanned : Option (List Byte)) :
    (∃ t, s.putString scanned = .next t) ∨ s.putString scanned = .fault .stringHang :=
  (putString_cases s scanned).imp (fun ⟨_, _, hput⟩ => ⟨_, hput⟩) And.right

theorem execTrap_completes_or_faults (vect : BitVec 8) (s : State) :
    (∃ t, execTrap vect s = .next t) ∨ ∃ f, ServiceFault s.cfg vect f ∧ execTrap vect s = .fault f := by
  rcases execTrap_cases vect s with ⟨hvect, hv⟩ | ⟨-, hv⟩ | ⟨hvect, hv⟩ | ⟨hvect, hv⟩ | ⟨hvect, hv⟩ |
    ⟨-, hv⟩ | ⟨-, hv⟩ <;> rw [hv]
  · exact (trapGetc_completes_or_holds s).imp_right fun h => ⟨_, .inl ⟨hvect, rfl⟩, h⟩
  · exact .inl ⟨_, rfl⟩
  · exact (putString_completes_or_hangs s _).imp_right fun h => ⟨_, .inr (.inr ⟨.inl hvect, rfl⟩), h⟩
  · exact (trapIn_completes_or_holds s).imp_right fun h => ⟨_, .inr (.inl ⟨hvect, rfl⟩), h⟩
  · exact (putString_completes_or_hangs s _).imp_right fun h => ⟨_, .inr (.inr ⟨.inr hvect, rfl⟩), h⟩
  · exact .inl ⟨_, rfl⟩
  · exact .inl ⟨_, rfl⟩

/-- An instruction completes, or it is a TRAP whose service holds or hangs; none is refused. -/
theorem exec_completes_or_faults (i : Instr) (s : State) :
    (∃ t, exec i s = .next t) ∨
    ∃ vect f, i = .trap vect ∧ ServiceFault s.cfg vect f ∧ exec i s = .fault f := by
  cases i with
  | trap vect =>
    exact (execTrap_completes_or_faults vect s).imp_right fun ⟨f, hf, h⟩ => ⟨vect, f, rfl, hf, h⟩
  | br | addR | addI | ld | st | jsr | jsrr | andR | andI | ldr | str | rti | notR | ldi | sti | jmp |
    res | lea => exact .inl ⟨_, rfl⟩

/-- Settles O50: a running core's step is the host's refusal or one executed instruction, which no
refusal comes from; the fetch leaves the parameters that name the services as they are. -/
theorem stepStopsOnlyAsHoldHangOrAbort : Obligations.StepStopsOnlyAsHoldHangOrAbort := by
  intro s
  rcases step_cases s with ⟨-, hstep⟩ | ⟨hrun, habort, hstep⟩ | ⟨hrun, habort, hstep⟩ <;> rw [hstep]
  · exact ⟨nofun, nofun⟩
  · refine ⟨nofun, fun r hr => ⟨hrun, habort, ?_⟩⟩
    cases hr; rfl
  · rcases exec_completes_or_faults (decode (fetch s).1) (fetch s).2 with
      ⟨t, hexec⟩ | ⟨vect, f, htrap, hfault, hexec⟩ <;> rw [hexec]
    · exact ⟨nofun, nofun⟩
    · refine ⟨fun g hg => ⟨hrun, habort, vect, htrap, ?_⟩, nofun⟩
      cases hg
      rwa [fetch_cfg] at hfault

end Sys2Proof.Machine
end

section
/-! The image loader (20_memory.md R38, 70_reset_and_hazards.md R117, R118): what a file's bytes
stand for, where its words go, and what a sequence of images leaves. -/

namespace Sys2Proof.Machine

/-! ### The words of a file (R38, R39) -/

@[simp] theorem beWord_highByte_lowByte (w : Word) : beWord (highByte w) (lowByte w) = w := by
  apply BitVec.eq_of_getLsbD_eq
  intro j hj
  simp only [beWord, highByte, lowByte, BitVec.getLsbD_or, BitVec.getLsbD_shiftLeft,
    BitVec.getLsbD_setWidth, BitVec.getLsbD_extractLsb']
  by_cases hlow : j < 8
  · simp [hlow, hj]
  · have hhigh : j - 8 < 8 := by omega
    have hsum : 8 + (j - 8) = j := by omega
    have hfits : j - 8 < 16 := by omega
    simp [hlow, hj, hhigh, hsum, hfits]

theorem fileWords_flatMap_bytes (ws : List Word) :
    fileWords (ws.flatMap fun w => [highByte w, lowByte w]) = some ws := by
  induction ws with
  | nil => rfl
  | cons w ws ih =>
    simp only [List.flatMap_cons, List.cons_append, List.nil_append, fileWords, ih, Option.map_some,
      beWord_highByte_lowByte]

@[simp] theorem fileWords_imageFile (o : Word) (ws : List Word) :
    fileWords (imageFile o ws) = some (o :: ws) :=
  fileWords_flatMap_bytes (o :: ws)

theorem two_le_length_imageFile (o : Word) (ws : List Word) : 2 ≤ (imageFile o ws).length := by
  simp [imageFile]

/-! ### Storing words at consecutive addresses -/

theorem read_storeWords_outside (m : Memory) {a b : Nat} (ws : List Word)
    (hb : b < a ∨ a + ws.length ≤ b) : (storeWords m a ws).read b = m.read b := by
  induction ws generalizing m a with
  | nil => rfl
  | cons w ws ih =>
    rw [List.length_cons] at hb
    rw [storeWords, ih _ (by omega), Memory.read_write, if_neg (by omega)]

/-- No word is overwritten by a later one, since each later write is at a higher address. -/
theorem read_storeWords_inside (m : Memory) (a : Nat) {ws : List Word} {k : Nat} (hk : k < ws.length) :
    (storeWords m a ws).read (a + k) = ws[k] := by
  induction ws generalizing m a k with
  | nil => cases hk
  | cons w ws ih =>
    cases k with
    | zero =>
      rw [storeWords, read_storeWords_outside _ _ (.inl (by omega)), Memory.read_write]
      simp
    | succ k =>
      have hk' : k < ws.length := Nat.lt_of_succ_lt_succ hk
      have haddr : a + (k + 1) = a + 1 + k := by omega
      rw [storeWords, haddr, ih _ _ hk', List.getElem_cons_succ]

/-! ### Images and their order (R38, R118) -/

theorem loadImage_imageFile (m : Memory) (o : Word) (ws : List Word) :
    loadImage m (imageFile o ws) =
      if o.toNat + ws.length ≤ 0x10000 then .ok (storeWords m o.toNat ws) else .error .tooLong := by
  rw [loadImage, if_neg (two_le_length_imageFile o ws).not_gt, fileWords_imageFile]

/-- Loading is in order (R118): the later images meet the memory that the earlier ones left. -/
theorem loadImages_append {m m' : Memory} {fs gs : List (List Byte)} :
    loadImages m (fs ++ gs) = .ok m' ↔
      ∃ m₁, loadImages m fs = .ok m₁ ∧ loadImages m₁ gs = .ok m' := by
  induction fs generalizing m with
  | nil => simp [loadImages]
  | cons f fs ih =>
    simp only [List.cons_append, loadImages]
    cases loadImage m f with
    | ok m₂ => exact ih
    | error e => simp

theorem loadImages_singleton (m : Memory) (f : List Byte) : loadImages m [f] = loadImage m f := by
  simp only [loadImages]
  cases loadImage m f <;> rfl

/-- Settles O60: the last image loads over what the earlier ones left, and its words go to its own
addresses only. -/
theorem laterImagesTakePrecedence : Obligations.LaterImagesTakePrecedence := by
  intro m m' files o ws hload
  obtain ⟨m₁, hfiles, hlast⟩ := loadImages_append.mp hload
  rw [loadImages_singleton, loadImage_imageFile] at hlast
  split at hlast <;> cases hlast
  exact ⟨m₁, hfiles, fun _ hk => read_storeWords_inside m₁ o.toNat hk,
    fun _ ha => read_storeWords_outside m₁ ws ha⟩

/-! ### The loaded machine (R116, R117) -/

/-- A machine that boots is the reset machine with the memory its images load into. -/
theorem boot_ok {files : List (List Byte)} {s : State} (h : boot files = .ok s) :
    ∃ m, loadImages State.reset.mem files = .ok m ∧ s = { State.reset with mem := m } := by
  unfold boot at h
  split at h
  · cases h
  · split at h <;> cases h
    next m hload => exact ⟨m, hload, rfl⟩

/-- Settles O58: the loader gives the reset machine another memory, and pc is not in memory. -/
theorem bootStartsAt3000WhateverTheOrigins : Obligations.BootStartsAt3000WhateverTheOrigins := by
  intro files s hboot
  obtain ⟨m, -, rfl⟩ := boot_ok hboot
  exact ⟨rfl, rfl⟩

end Sys2Proof.Machine
end

section
/-! The encoding (30_encoding.md): how masks, placed fields and reads of a field fit together, and with
it the decoder against the opcode table (R64), the operand ranges (R62), the ignored bits (R63) and
the encoder (R51 to R61). -/

namespace Sys2Proof

/-! ### Fields of a word -/

/-- A placed field is read back from its place. -/
theorem extractLsb'_place_same {n lo : Nat} (h : lo + n ≤ 16) (b : BitVec n) :
    (place lo b).extractLsb' lo n = b := by
  apply BitVec.eq_of_getLsbD_eq
  intro j hj
  have hj16 : lo + j < 16 := by omega
  rw [BitVec.getLsbD_extractLsb', getLsbD_place, Nat.add_sub_cancel_left]
  simp [hj, hj16]

/-- A field placed elsewhere does not show in the field read. -/
theorem extractLsb'_place_disjoint {n lo n' lo' : Nat} (h : lo + n ≤ lo' ∨ lo' + n' ≤ lo)
    (b : BitVec n) : (place lo b).extractLsb' lo' n' = 0 := by
  apply BitVec.eq_of_getLsbD_eq
  intro j hj
  rw [BitVec.getLsbD_extractLsb', getLsbD_place]
  rcases h with hbelow | habove
  · have hout : n ≤ lo' + j - lo := by omega
    simp [BitVec.getLsbD_of_ge b _ hout]
  · have hout : lo' + j < lo := by omega
    simp [hout]

/-- `getLsbD_place` in simp's spelling of a bit. -/
theorem getElem_place {n : Nat} (lo : Nat) (b : BitVec n) {j : Nat} (hj : j < 16) :
    (place lo b)[j] = (!decide (j < lo) && b.getLsbD (j - lo)) := by
  rw [← BitVec.getLsbD_eq_getElem, getLsbD_place, decide_eq_true hj, Bool.true_and]

/-- The bits of the field [lo+n-1:lo]. -/
def fieldMask (lo n : Nat) : Word := place lo (BitVec.allOnes n)

/-- Masking a word with a field's bits leaves the field in its place. -/
theorem and_fieldMask (w : Word) (lo n : Nat) :
    w &&& fieldMask lo n = place lo (w.extractLsb' lo n) := by
  apply BitVec.eq_of_getLsbD_eq
  intro j hj
  rw [BitVec.getLsbD_and, fieldMask, getLsbD_place, getLsbD_place, BitVec.getLsbD_allOnes,
    BitVec.getLsbD_extractLsb']
  by_cases hlo : j < lo
  · simp [hlo]
  · have hsum : lo + (j - lo) = j := by omega
    simp [hj, hlo, hsum, Bool.and_comm]

/-- Two words agree on a field's bits exactly when the field reads the same in both. -/
theorem xor_and_fieldMask_eq_zero {lo n : Nat} (h : lo + n ≤ 16) {w w' : Word} :
    (w ^^^ w') &&& fieldMask lo n = 0 ↔ w.extractLsb' lo n = w'.extractLsb' lo n := by
  rw [and_fieldMask, ← BitVec.xor_eq_zero_iff (x := w.extractLsb' lo n), ← BitVec.extractLsb'_xor]
  refine ⟨fun hplace => ?_, fun hfield => ?_⟩
  · rw [← extractLsb'_place_same h ((w ^^^ w').extractLsb' lo n), hplace]
    exact BitVec.extractLsb'_zero
  · rw [hfield]; simp [place]

theorem extractLsb'_one_inj {lo : Nat} {w w' : Word} :
    w.extractLsb' lo 1 = w'.extractLsb' lo 1 ↔ w.getLsbD lo = w'.getLsbD lo := by
  simp [BitVec.eq_of_getLsbD_eq_iff]

theorem Reg.ofBits_inj {b b' : BitVec 3} : Reg.ofBits b = Reg.ofBits b' ↔ b = b' :=
  ⟨fun h => by rw [← Reg.toBits_ofBits b, h, Reg.toBits_ofBits], congrArg _⟩

theorem Opcode.ofBits_inj {b b' : BitVec 4} : Opcode.ofBits b = Opcode.ofBits b' ↔ b = b' :=
  ⟨fun h => by rw [← Opcode.bits_ofBits b, h, Opcode.bits_ofBits], congrArg _⟩

theorem sext_inj {n : Nat} (hn : 0 < n) (hn' : n ≤ 16) {v v' : BitVec n} :
    sext v = sext v' ↔ v = v' :=
  ⟨fun h => BitVec.eq_of_toInt_eq (by rw [← sext_toInt hn hn', h, sext_toInt hn hn']), congrArg _⟩

/-! ### The rows of the opcode table (R64) -/

section
variable {w m v : Word} (h : w &&& m = v)
include h

/-- A word that fits a row has the row's opcode, if the row's mask covers bits [15:12]. -/
theorem opcodeOf_of_and_eq (hm : m.extractLsb' 12 4 = BitVec.allOnes 4) : opcodeOf w = opcodeOf v := by
  rw [opcodeOf, opcodeOf, ← h, BitVec.extractLsb'_and, hm, BitVec.and_allOnes]

/-- A word that fits a row has the row's bit wherever the row's mask covers it. -/
theorem getLsbD_of_and_eq {j : Nat} (hm : m.getLsbD j = true) : w.getLsbD j = v.getLsbD j := by
  rw [← h, BitVec.getLsbD_and, hm, Bool.and_true]

end

/-- Settles O2: a row's mask fixes the opcode, and the bit that tells two forms of one opcode apart. -/
theorem decodeReadsEveryTableRow : Obligations.DecodeReadsEveryTableRow := by
  intro w
  have sext_field {n : Nat} (hn : 0 < n ∧ n ≤ 16) :
      (w.extractLsb' 0 n).signExtend 16 = sext (w.extractLsb' 0 n) :=
    (sext_eq_signExtend hn.1 hn.2 _).symm
  rw [sext_field (by decide), sext_field (by decide), sext_field (by decide), sext_field (by decide)]
  refine ⟨fun h => ?br, fun h => ?addR, fun h => ?addI, fun h => ?ld, fun h => ?st, fun h => ?jsr,
    fun h => ?jsrr, fun h => ?andR, fun h => ?andI, fun h => ?ldr, fun h => ?str, fun h => ?rti,
    fun h => ?notR, fun h => ?ldi, fun h => ?sti, fun h => ?jmp, fun h => ?res, fun h => ?lea,
    fun h => ?trap⟩ <;> rw [decode, opcodeOf_of_and_eq h rfl]
  case addI | andI | jsr => exact if_pos (getLsbD_of_and_eq h rfl)
  case addR | andR | jsrr => exact if_neg (by rw [getLsbD_of_and_eq h rfl]; decide)
  case br | ld | st | ldr | str | rti | notR | ldi | sti | jmp | res | lea | trap => rfl

/-- Settles O1: each word is a literal. -/
theorem sampleWordsDecode : Obligations.SampleWordsDecode := by
  unfold Obligations.SampleWordsDecode
  decide

/-! ### What the decoder gives (R62) -/

/-- Settles O4: every immediate and offset is the extension of a field of its width. -/
theorem decodedInstructionIsWellFormed : Obligations.DecodedInstructionIsWellFormed := by
  intro w
  have hfits {n : Nat} (hn : 0 < n ∧ n ≤ 16) : fitsSigned n (sext (w.extractLsb' 0 n)) = true :=
    fitsSigned_sext hn.1 hn.2 _
  unfold decode
  cases opcodeOf w with
  | br | ld | st | ldr | str | ldi | sti | lea => exact hfits (by decide)
  | add | and | jsr =>
    dsimp only
    split
    · exact hfits (by decide)
    · rfl
  | rti | not | jmp | res | trap => rfl

theorem opcode_decode (w : Word) : (decode w).opcode = opcodeOf w := by
  unfold decode
  cases opcodeOf w with
  | add | and | jsr => dsimp only; split <;> rfl
  | br | ld | st | ldr | str | rti | not | ldi | sti | jmp | res | lea | trap => rfl

/-! ### The encoder (R51 to R61) -/

theorem opcodeOf_encode (i : Instr) : opcodeOf (encode i) = i.opcode := by
  open Laws.OpcodeOfEncoding in
  cases i with
  | br => exact br ..
  | addR => exact addR ..
  | addI => exact addI ..
  | ld => exact ld ..
  | st => exact st ..
  | jsr => exact jsr ..
  | jsrr => exact jsrr ..
  | andR => exact andR ..
  | andI => exact andI ..
  | ldr => exact ldr ..
  | str => exact str ..
  | rti => exact rti
  | notR => exact notR ..
  | ldi => exact ldi ..
  | sti => exact sti ..
  | jmp => exact jmp ..
  | res => exact res
  | lea => exact lea ..
  | trap => exact trap ..

/-- Settles O3: the fields of a format do not overlap, so each is read back from the word, and an
operand in its field's range is the extension of its low bits. -/
theorem decodeOfEncodeIsIdentity : Obligations.DecodeOfEncodeIsIdentity := by
  intro i hwf
  rw [decode, opcodeOf_encode]
  cases i <;> simp only [Instr.wf] at hwf <;> simp only [Instr.opcode, encode, placeOp]
  case br | jsr | jsrr | notR | jmp | trap =>
    simp [fieldDR, fieldSR1, fieldOff9, fieldOff11, BitVec.extractLsb'_or, extractLsb'_place_same,
      extractLsb'_place_disjoint, getElem_place, sext_extract, hwf]
  case addR | andR =>
    simp [packOPR, placeOp, fieldDR, fieldSR1, fieldSR2, BitVec.extractLsb'_or, extractLsb'_place_same,
      extractLsb'_place_disjoint, getElem_place]
  case addI | andI =>
    simp [packOPI, placeOp, fieldDR, fieldSR1, fieldImm5, BitVec.extractLsb'_or, extractLsb'_place_same,
      extractLsb'_place_disjoint, getElem_place, sext_extract, hwf]
  case ld | st | ldi | sti | lea =>
    simp [packPC9, placeOp, fieldDR, fieldOff9, BitVec.extractLsb'_or, extractLsb'_place_same,
      extractLsb'_place_disjoint, sext_extract, hwf]
  case ldr | str =>
    simp [packBASE6, placeOp, fieldDR, fieldSR1, fieldOff6, BitVec.extractLsb'_or,
      extractLsb'_place_same, extractLsb'_place_disjoint, sext_extract, hwf]

end Sys2Proof

namespace Sys2Proof.Machine

/-! ### The ignored bits (R63) -/

/-- The fields of a word that tell an instruction from all others, each as its lowest bit and its
width (R50 to R61): the opcode, the operands, and the bit that tells two forms of one opcode apart. -/
def readFields : Instr → List (Nat × Nat)
  | .br _ _ _ _ => [(12, 4), (11, 1), (10, 1), (9, 1), (0, 9)]
  | .ld _ _ | .st _ _ | .ldi _ _ | .sti _ _ | .lea _ _ => [(12, 4), (9, 3), (0, 9)]
  | .addR _ _ _ | .andR _ _ _ => [(12, 4), (9, 3), (6, 3), (5, 1), (0, 3)]
  | .addI _ _ _ | .andI _ _ _ => [(12, 4), (9, 3), (6, 3), (5, 1), (0, 5)]
  | .ldr _ _ _ | .str _ _ _ => [(12, 4), (9, 3), (6, 3), (0, 6)]
  | .notR _ _ => [(12, 4), (9, 3), (6, 3)]
  | .jsr _ => [(12, 4), (11, 1), (0, 11)]
  | .jsrr _ => [(12, 4), (11, 1), (6, 3)]
  | .jmp _ => [(12, 4), (6, 3)]
  | .rti | .res => [(12, 4)]
  | .trap _ => [(12, 4), (0, 8)]

theorem opcode_mem_readFields (i : Instr) : (12, 4) ∈ readFields i := by
  cases i <;> exact List.mem_cons_self

theorem not_ignoredBits (i : Instr) :
    ~~~ (ignoredBits i) = (readFields i).foldr (fun f m => fieldMask f.1 f.2 ||| m) 0 := by
  cases i <;> dsimp only [ignoredBits, readFields] <;> decide

/-- Two words differ in ignored bits only exactly when every field that is read is the same in both. -/
theorem differ_in_ignoredBits_iff (w w' : Word) (i : Instr) :
    (w ^^^ w') &&& ~~~ (ignoredBits i) = 0 ↔
      ∀ f ∈ readFields i, w.extractLsb' f.1 f.2 = w'.extractLsb' f.1 f.2 := by
  have hfits : ∀ f ∈ readFields i, f.1 + f.2 ≤ 16 := by cases i <;> simp [readFields]
  rw [not_ignoredBits]
  generalize readFields i = fields at hfits
  induction fields with
  | nil => simp
  | cons f fields ih =>
    rw [List.forall_mem_cons] at hfits ⊢
    obtain ⟨hf, hfields⟩ := hfits
    rw [List.foldr_cons, BitVec.and_or_distrib_left]
    exact BitVec.or_eq_zero_iff.trans (and_congr (xor_and_fieldMask_eq_zero hf) (ih hfields))

/-- Settles O5: words of different opcodes differ in a read field; for one opcode the instructions are
equal when each field read is, since the decoding of each field is injective. -/
theorem decodeIgnoresExactlyTheUnusedBits : Obligations.DecodeIgnoresExactlyTheUnusedBits := by
  intro w w'
  rw [differ_in_ignoredBits_iff]
  by_cases hop : w.extractLsb' 12 4 = w'.extractLsb' 12 4
  case neg =>
    refine iff_of_false (fun h => hop ?_) (fun h => hop (h (12, 4) (opcode_mem_readFields _)))
    exact Opcode.ofBits_inj.mp ((opcode_decode w).symm.trans (h ▸ opcode_decode w'))
  unfold decode
  rw [show opcodeOf w' = opcodeOf w from congrArg Opcode.ofBits hop.symm]
  cases opcodeOf w with
  | add | and =>
    cases h : w[5] <;> cases h' : w'[5] <;> simp [readFields, hop, extractLsb'_one_inj, h, h',
      fieldDR, fieldSR1, fieldSR2, fieldImm5, Reg.ofBits_inj, sext_inj]
  | jsr =>
    cases h : w[11] <;> cases h' : w'[11] <;> simp [readFields, hop, extractLsb'_one_inj, h, h',
      fieldSR1, fieldOff11, Reg.ofBits_inj, sext_inj]
  | br | ld | st | ldr | str | rti | not | ldi | sti | jmp | res | lea | trap =>
    simp [readFields, hop, extractLsb'_one_inj, fieldDR, fieldSR1, fieldOff6, fieldOff9,
      Reg.ofBits_inj, sext_inj]

end Sys2Proof.Machine
end

section
/-! The invariant (10_state.md R22 to R26, log entry 8): each operation of the model keeps it, so every
instruction of a running core and every step does; and the reset state meets it (R116). -/

namespace Sys2Proof.Machine

/-! ### The operations on the state -/

namespace State.Inv

variable {s t : State}

/-- Away from the report on the run, the invariant asks only for the canonical memory and a key's byte. -/
theorem of_same_report (h : s.Inv) (hmem : t.mem.wf = true) (hdata : highByte t.kbData = 0#8)
    (hcfg : t.cfg = s.cfg) (hrun : t.runState = s.runState) (hreason : t.haltReason = s.haltReason)
    (hinfo : t.faultInfo = s.faultInfo) : t.Inv where
  memWf := hmem
  kbDataByte := hdata
  cfgWf := hcfg ▸ h.cfgWf
  haltReason_iff := by rw [hrun, hreason]; exact h.haltReason_iff
  faultInfo_iff := by rw [hinfo, hreason]; exact h.faultInfo_iff

theorem setReg (h : s.Inv) (r : Reg) (v : Word) : (s.setReg r v).Inv :=
  h.of_same_report h.memWf h.kbDataByte rfl rfl rfl rfl

theorem setPc (h : s.Inv) (a : Word) : (s.setPc a).Inv :=
  h.of_same_report h.memWf h.kbDataByte rfl rfl rfl rfl

theorem emit (h : s.Inv) (bs : List Byte) : (s.emit bs).Inv :=
  h.of_same_report h.memWf h.kbDataByte rfl rfl rfl rfl

theorem writeDest (h : s.Inv) (dr : Reg) (v : Word) : (s.writeDest dr v).Inv :=
  h.of_same_report h.memWf h.kbDataByte rfl rfl rfl rfl

theorem memWrite (h : s.Inv) (a v : Word) : (memWrite a v s).Inv :=
  h.of_same_report (memWrite_wf h.memWf a v) (by rw [memWrite_kbData]; exact h.kbDataByte)
    (memWrite_cfg a v s) (memWrite_runState a v s) (memWrite_haltReason a v s)
    (memWrite_faultInfo a v s)

/-- A poll latches a key's code, whose high byte is 0 (D11). -/
theorem highByte_pollKey (h : s.Inv) : highByte s.pollKey.kbData = 0#8 := by
  rcases s.pollKey_cases with ⟨-, hpoll⟩ | ⟨-, k, _, -, hpoll⟩ | ⟨-, _, -, hpoll⟩ | ⟨-, -, hpoll⟩ <;>
    rw [hpoll]
  · exact h.kbDataByte
  · exact highByte_zext k
  · exact h.kbDataByte
  · exact h.kbDataByte

theorem memRead (h : s.Inv) (a : Word) : (memRead a s).2.Inv := by
  refine h.of_same_report (memRead_wf h.memWf a) ?_ (memRead_cfg a s) (memRead_runState a s)
    (memRead_haltReason a s) (memRead_faultInfo a s)
  rcases memRead_state_cases a s with ⟨-, hread⟩ | ⟨-, hread⟩ | ⟨-, hread⟩ <;> rw [hread]
  · exact h.kbDataByte
  · exact h.highByte_pollKey
  · exact h.highByte_pollKey

theorem fetch (h : s.Inv) : (fetch s).2.Inv :=
  (h.memRead s.pc).of_same_report (h.memRead s.pc).memWf (h.memRead s.pc).kbDataByte rfl rfl rfl rfl

theorem loadFrom (h : s.Inv) (dr : Reg) (ea : Word) : (s.loadFrom dr ea).Inv :=
  (h.memRead ea).writeDest dr _

theorem getKey {k : Word} (h : s.Inv) (hkey : getKey s = some (k, t)) : t.Inv := by
  rcases getKey_cases s with ⟨-, hget⟩ | ⟨-, j, _, -, hget⟩ | ⟨-, -, hget⟩ <;> rw [hget] at hkey <;>
    cases hkey
  · exact h.of_same_report h.memWf h.kbDataByte rfl rfl rfl rfl
  · exact h.of_same_report h.memWf (highByte_zext j) rfl rfl rfl rfl

/-- A fatal error writes the whole report, so what the report said before is of no account. -/
theorem fatal {reason : HaltReason} (h : s.Inv) (hfatal : reason.isFatal = true) (info : FaultInfo) :
    (s.fatal reason info).Inv where
  memWf := h.memWf
  kbDataByte := h.kbDataByte
  cfgWf := h.cfgWf
  haltReason_iff := by simp
  faultInfo_iff := by simp [hfatal]

/-- A running core has nothing to report. -/
theorem faultInfo_eq_none (h : s.Inv) (hrun : s.runState = .running) : s.faultInfo = none := by
  have hreason : ¬ s.haltReason.isSome = true := fun hsome => by
    rw [h.haltReason_iff.mpr hsome] at hrun; cases hrun
  rw [← Option.not_isSome_iff_eq_none, h.faultInfo_iff]
  rintro ⟨r, hr, -⟩
  exact hreason (by rw [hr]; rfl)

/-- HALT is no fatal reason, and it leaves fault_info empty as a running core has it. -/
theorem halt (h : s.Inv) (hrun : s.runState = .running) : s.halt.Inv where
  memWf := h.memWf
  kbDataByte := h.kbDataByte
  cfgWf := h.cfgWf
  haltReason_iff := by simp
  faultInfo_iff := by simp [h.faultInfo_eq_none hrun, HaltReason.isFatal]

/-! ### The services, the instructions and the step -/

theorem trapGetc (h : s.Inv) (hexec : trapGetc s = .next t) : t.Inv := by
  unfold Machine.trapGetc at hexec
  split at hexec <;> cases hexec
  next hkey => exact (h.getKey hkey).writeDest .r0 _

theorem trapIn (h : s.Inv) (hexec : trapIn s = .next t) : t.Inv := by
  unfold Machine.trapIn at hexec
  split at hexec <;> cases hexec
  next hkey => exact (((h.emit s.cfg.inPrompt).getKey hkey).emit _).writeDest .r0 _

theorem putString {scanned : Option (List Byte)} (h : s.Inv) (hexec : s.putString scanned = .next t) :
    t.Inv := by
  rcases putString_cases s scanned with ⟨bs, -, hput⟩ | ⟨-, hput⟩ <;> rw [hput] at hexec <;>
    cases hexec
  exact h.emit bs

theorem execTrap {vect : BitVec 8} (h : s.Inv) (hrun : s.runState = .running)
    (hexec : execTrap vect s = .next t) : t.Inv := by
  rcases execTrap_cases vect s with ⟨-, hv⟩ | ⟨-, hv⟩ | ⟨-, hv⟩ | ⟨-, hv⟩ | ⟨-, hv⟩ | ⟨-, hv⟩ |
    ⟨-, hv⟩ <;> rw [hv] at hexec
  · exact h.trapGetc hexec
  · cases hexec; exact h.emit _
  · exact h.putString hexec
  · exact h.trapIn hexec
  · exact h.putString hexec
  · cases hexec; exact (h.emit s.cfg.haltNotice).halt hrun
  · cases hexec; exact h.fatal rfl s.fetched

theorem exec {i : Instr} (h : s.Inv) (hrun : s.runState = .running) (hexec : exec i s = .next t) :
    t.Inv := by
  cases i with
  | addR | addI | andR | andI | notR | lea => cases hexec; exact h.writeDest _ _
  | ld | ldr => cases hexec; exact h.loadFrom _ _
  | ldi => cases hexec; exact (h.memRead _).loadFrom _ _
  | st | str => cases hexec; exact h.memWrite _ _
  | sti => cases hexec; exact (h.memRead _).memWrite _ _
  | br =>
    cases hexec
    split
    · exact h.setPc _
    · exact h
  | jmp => cases hexec; exact h.setPc _
  | jsr | jsrr => cases hexec; exact (h.setReg .r7 s.pc).setPc _
  | rti | res => cases hexec; exact h.fatal rfl s.fetched
  | trap => exact h.execTrap hrun hexec

end State.Inv

/-- Settles O53: a halted core does nothing, and of a running one the fetch and the executed
instruction keep the invariant. -/
theorem stepKeepsTheInvariant : Obligations.StepKeepsTheInvariant := by
  intro s t hinv hstep
  rcases step_next_cases hstep with ⟨-, rfl⟩ | ⟨hrun, -, hexec⟩
  · exact hinv
  · exact hinv.fetch.exec (by rw [fetch_runState, hrun]) hexec

/-! ### Reset (R116) -/

/-- Settles O54: reset's memory is empty, and it is running with nothing to report. -/
theorem resetMeetsTheInvariant : Obligations.ResetMeetsTheInvariant where
  memWf := State.reset_mem_wf
  kbDataByte := by decide
  cfgWf := by decide
  haltReason_iff := by simp [State.reset]
  faultInfo_iff := by simp [State.reset]

/-- Settles O57: reset lists no cell, so each reads as 0. -/
theorem resetValues : Obligations.ResetValues :=
  ⟨fun r => by cases r <;> rfl, rfl, rfl, rfl, rfl, fun a => Memory.read_nil a.toNat, rfl, rfl, rfl, rfl⟩

end Sys2Proof.Machine
end

section
/-! The memory operations and the keyboard cells (20_memory.md R32 to R37): the poll by what the console
answers, the two keyboard cells' reads, MemWrite, Peek, and which instructions change storage. -/

namespace Sys2Proof.Machine

/-! ### The reads of the keyboard cells (R33, R34) -/

section
variable {s : State} {rest : List (Option Byte)}

theorem State.pollKey_of_key {k : Byte} (hready : s.kbReady = false) (hinput : s.input = some k :: rest) :
    s.pollKey = { s with kbReady := true, kbData := zext k, input := rest } := by
  simp [State.pollKey, hready, hinput, keyPoll]

theorem State.pollKey_of_no_key (hready : s.kbReady = false) (hinput : s.input = none :: rest) :
    s.pollKey = { s with input := rest } := by
  simp [State.pollKey, hready, hinput, keyPoll]

theorem State.pollKey_of_no_answer (hready : s.kbReady = false) (hinput : s.input = []) :
    s.pollKey = s := by
  have hinput' : { s with input := [] } = s := by rw [← hinput]
  simpa [State.pollKey, hready, hinput, keyPoll] using hinput'

end

/-- Clearing a ready bit that is 0 changes nothing. -/
theorem State.clear_kbReady {s : State} (hready : s.kbReady = false) : { s with kbReady := false } = s := by
  rw [← hready]

theorem memRead_kbsrAddr (s : State) :
    memRead s.cfg.kbsrAddr s = (statusWord s.pollKey.kbReady, s.pollKey) :=
  memRead_kbsr (target_kbsr s.cfg)

theorem memRead_kbdrAddr {s : State} (hwf : s.cfg.wf = true) :
    memRead s.cfg.kbdrAddr s = (s.pollKey.kbData, { s.pollKey with kbReady := false }) :=
  memRead_kbdr (target_kbdr (Config.wf_distinct hwf).1)

/-- Settles O19: the read answers by the ready bit after the poll, in each case of the poll. -/
theorem kbsrReadPollsOnlyWhileNoKeyIsLatched : Obligations.KbsrReadPollsOnlyWhileNoKeyIsLatched := by
  intro s
  rw [memRead_kbsrAddr]
  refine ⟨fun hready => ?_, fun k rest hready hinput => ?_, fun rest hready hinput => ?_,
    fun hready hinput => ?_⟩
  · rw [State.pollKey_of_ready hready, hready]; rfl
  · rw [State.pollKey_of_key hready hinput]; rfl
  · rw [State.pollKey_of_no_key hready hinput, hready]; rfl
  · rw [State.pollKey_of_no_answer hready hinput, hready]; rfl

/-- Settles O20: the read answers the data cell after the poll, in each case of the poll, and clears
the ready bit. -/
theorem kbdrReadConsumesTheKey : Obligations.KbdrReadConsumesTheKey := by
  intro s hwf
  rw [memRead_kbdrAddr hwf]
  refine ⟨fun hready => ?_, fun k rest hready hinput => ?_, fun rest hready hinput => ?_,
    fun hready hinput => ?_⟩
  · rw [State.pollKey_of_ready hready]
  · rw [State.pollKey_of_key hready hinput]
  · rw [State.pollKey_of_no_key hready hinput]
    exact congrArg (Prod.mk s.kbData) (State.clear_kbReady hready)
  · rw [State.pollKey_of_no_answer hready hinput, State.clear_kbReady hready]

/-! ### MemWrite and Peek (R35, R37) -/

/-- Settles O21: MemWrite is a store at a storage address and nothing at a keyboard cell. -/
theorem memWriteStoresOrIsDiscarded : Obligations.MemWriteStoresOrIsDiscarded := by
  intro a v s
  refine ⟨fun hstorage => ⟨?_, fun b hb => ?_⟩, fun hdevice => memWrite_device ?_ v, ?_⟩
  · rw [memWrite_cell, if_pos ⟨rfl, hstorage⟩]
  · rw [memWrite_cell, if_neg fun h => hb h.1]
  · rw [Ne, target_eq_storage]
    tauto
  · rcases memWrite_cases a v s with ⟨-, h⟩ | ⟨-, h⟩
    · rw [h]; rfl
    · rw [h]

theorem peek_storage {s : State} {a : Word} (h : target s.cfg a = .storage) : peek a s = s.cell a := by
  simp [peek, h]

theorem peek_kbsr {s : State} {a : Word} (h : target s.cfg a = .kbsr) :
    peek a s = statusWord s.kbReady := by
  simp [peek, h]

theorem peek_kbdr {s : State} {a : Word} (h : target s.cfg a = .kbdr) : peek a s = s.kbData := by
  simp [peek, h]

/-- Settles O23: Peek looks at the addressed cell alone, and the console's answers are none. -/
theorem peekNeverPolls : Obligations.PeekNeverPolls := by
  intro a s input hwf
  refine ⟨peek_storage, ?_, ?_, rfl⟩
  · rintro rfl
    exact peek_kbsr (target_kbsr s.cfg)
  · rintro rfl
    exact peek_kbdr (target_kbdr (Config.wf_distinct hwf).1)

/-! ### Who changes storage (R36) -/

/-- Of the effects of an instruction only a store's changes a cell. -/
theorem exec_changes_cells_only_in_stores {i : Instr} {s t : State} {a : Word} (h : exec i s = .next t)
    (hne : t.cell a ≠ s.cell a) : i.opcode ∈ [.st, .sti, .str] := by
  cases exec_effect h with
  | stores _ _ _ _ _ hi => exact hi
  | writesDest | jumps | calls | takesKey | takesKeyWithEcho | prints | halts | unsupportedTrap
  | unsupportedOpcode => exact absurd rfl hne

/-- A cell that MemWrite changed is the addressed one, in storage, and holds the value. -/
theorem memWrite_changed_cell {s : State} {ea v a : Word} (hne : (memWrite ea v s).cell a ≠ s.cell a) :
    a = ea ∧ target s.cfg ea = .storage ∧ (memWrite ea v s).cell a = v := by
  rw [memWrite_cell, ite_ne_right_iff] at hne
  obtain ⟨⟨rfl, hstorage⟩, -⟩ := hne
  exact ⟨rfl, hstorage, by rw [memWrite_cell, if_pos ⟨rfl, hstorage⟩]⟩

/-- A cell that an instruction changed is the storage cell a store instruction addresses, and holds
the stored register. -/
theorem exec_changed_cell {i : Instr} {s t : State} {a : Word} (h : exec i s = .next t)
    (hne : t.cell a ≠ s.cell a) :
    target s.cfg a = .storage ∧
    ((∃ sr off, i = .st sr off ∧ a = eaPC off s ∧ t.cell a = s.reg sr) ∨
     (∃ sr off, i = .sti sr off ∧ a = (memRead (eaPC off s) s).1 ∧ t.cell a = s.reg sr) ∨
     (∃ sr base off, i = .str sr base off ∧ a = eaBase base off s ∧ t.cell a = s.reg sr)) := by
  have hstore := exec_changes_cells_only_in_stores h hne
  cases i with
  | st sr off =>
    cases h
    obtain ⟨rfl, hstorage, hcell⟩ := memWrite_changed_cell hne
    exact ⟨hstorage, .inl ⟨sr, off, rfl, rfl, hcell⟩⟩
  | sti sr off =>
    cases h
    rw [← memRead_cell (eaPC off s) a s] at hne
    obtain ⟨rfl, hstorage, hcell⟩ := memWrite_changed_cell hne
    rw [memRead_cfg] at hstorage
    exact ⟨hstorage, .inr (.inl ⟨sr, off, rfl, rfl, hcell.trans (memRead_reg _ s sr)⟩)⟩
  | str sr base off =>
    cases h
    obtain ⟨rfl, hstorage, hcell⟩ := memWrite_changed_cell hne
    exact ⟨hstorage, .inr (.inr ⟨sr, base, off, rfl, rfl, hcell⟩)⟩
  | br | addR | addI | ld | jsr | jsrr | andR | andI | ldr | rti | notR | ldi | jmp | res | lea
  | trap => simp [Instr.opcode] at hstore

/-- Settles O22: a fetch changes neither a cell nor a register, so what a step changes in storage its
executed instruction does. -/
theorem storageChangesOnlyByStores : Obligations.StorageChangesOnlyByStores := by
  refine ⟨fun a v s hstorage => ?_, fun s t a hstep hne => ?_⟩
  · rw [memRead_storage (by rw [memWrite_cfg, hstorage]), memWrite_cell, if_pos ⟨rfl, hstorage⟩]
  · rcases step_next_cases hstep with ⟨-, rfl⟩ | ⟨-, -, hexec⟩
    · exact absurd rfl hne
    · rw [← fetch_cell s a] at hne
      simpa only [fetch_cfg, fetch_reg] using exec_changed_cell hexec hne

end Sys2Proof.Machine
end

section
/-! The step (41_control.md R73, R74): what it executes, and what comes of it in given cases: the fatal
errors (60_exceptions.md R99, R101), a fetch from KBSR (20_memory.md R33), a store before the next
fetch (R46), and a call that returns (R80), with JSRR (R79) and the effective addresses (R81). -/

namespace Sys2Proof.Machine

/-! ### JSRR and the effective addresses (R79, R81) -/

/-- Settles O17: the base is read in the state that has the link, where R7 alone differs. -/
theorem jsrrLinksThenReadsTheBase : Obligations.JsrrLinksThenReadsTheBase := by
  intro base s
  refine ⟨s.link.setPc (s.link.reg base), rfl, s.reg_link_r7, s.link_sameRegsBut base, ?_,
    s.link_sameRegsBut, s.link_setPc_jumpFrame _⟩
  rintro rfl
  exact s.reg_link_r7

/-- Settles O10: both addresses are sums modulo 2^16. -/
theorem effectiveAddressesWrap : Obligations.EffectiveAddressesWrap := fun s base off =>
  ⟨toNat_add16 s.pc off, toNat_add16 (s.reg base) off⟩

/-! ### The step (R73) -/

/-- A step from a storage address executes the stored word's instruction. -/
theorem step_storage {s : State} (hrun : s.runState = .running) (habort : s.abort = false)
    (hpc : target s.cfg s.pc = .storage) : step s = exec (decode (s.cell s.pc)) (fetch s).2 := by
  rw [step_running hrun habort, fetch_word, memRead_storage hpc]

/-- Settles O41: fetch is MemRead at pc and the increment. -/
theorem stepRunsTheDecodedInstruction : Obligations.StepRunsTheDecodedInstruction := by
  intro s hrun habort
  refine ⟨step_running hrun habort, ?_, BitVec.toNat_add s.pc 1⟩
  rintro hpc i rfl
  rw [step_storage hrun habort hpc, fetch_storage hpc]

/-- Settles O42: the run state and the host's request are looked at before the fetch. -/
theorem haltedCoreKeepsItsStateAndAbortCutsOff : Obligations.HaltedCoreKeepsItsStateAndAbortCutsOff :=
  fun s => ⟨step_halted, fun hrun habort => by simp [step, hrun, habort]⟩

/-! ### Fatal errors (R99, R101) -/

/-- Settles O40: RTI and RES are one fatal error, and so is a TRAP that the dispatcher's table does
not know. -/
theorem fatalErrorsRecordTheFetchedWord : Obligations.FatalErrorsRecordTheFetchedWord := by
  intro s
  refine ⟨?_, fun v hv => ?_⟩
  · rintro i (rfl | rfl) <;> rfl
  · simp only [Config.vectors, List.mem_cons, List.not_mem_nil, or_false, not_or] at hv
    simp [exec, execTrap, hv, State.fatal]

theorem decode_of_opcode_rti {w : Word} (h : w.extractLsb' 12 4 = 0x8) : decode w = .rti := by
  rw [decode, opcodeOf, h]; rfl

theorem decode_of_opcode_res {w : Word} (h : w.extractLsb' 12 4 = 0xD) : decode w = .res := by
  rw [decode, opcodeOf, h]; rfl

theorem decode_of_opcode_trap {w : Word} (h : w.extractLsb' 12 4 = 0xF) :
    decode w = .trap (w.extractLsb' 0 8) := by
  rw [decode, opcodeOf, h]; rfl

/-- Settles O43: the word decodes to RTI, RES or an unknown TRAP, whose whole effect is the fatal
error. -/
theorem fatalErrorsArePrecise : Obligations.FatalErrorsArePrecise := by
  intro s hrun habort hpc
  obtain ⟨hopcode, htrap⟩ := fatalErrorsRecordTheFetchedWord (fetch s).2
  rw [step_storage hrun habort hpc]
  rw [fetch_storage hpc] at hopcode htrap ⊢
  refine ⟨fun hw => ⟨⟨s.cell s.pc, s.pc⟩, ?_⟩, fun hw hvect => ⟨⟨s.cell s.pc, s.pc⟩, ?_⟩⟩
  · exact hopcode _ (hw.imp decode_of_opcode_rti decode_of_opcode_res)
  · rw [decode_of_opcode_trap hw]
    exact htrap _ hvect

/-! ### A fetch from KBSR (R33, R46) -/

/-- Settles O45: the status word read is 0x8000, an RTI, or 0x0000, a BR with no condition. -/
theorem fetchFromKbsrPolls : Obligations.FetchFromKbsrPolls := by
  intro s hrun habort hpc
  obtain ⟨hlatched, hkey, hnokey, hnoanswer⟩ := kbsrReadPollsOnlyWhileNoKeyIsLatched s
  have hrti : decode 0x8000 = .rti := by decide
  have hbr : decode 0x0000 = .br false false false 0 := by decide
  rw [step_running hrun habort, fetch, hpc]
  refine ⟨fun hready => ⟨⟨0x8000, s.cfg.kbsrAddr⟩, ?_⟩,
    fun k rest hready hinput => ⟨⟨0x8000, s.cfg.kbsrAddr⟩, ?_⟩,
    fun rest hready hinput => ⟨⟨0x0000, s.cfg.kbsrAddr⟩, ?_⟩,
    fun hready hinput => ⟨⟨0x0000, s.cfg.kbsrAddr⟩, ?_⟩⟩
  · rw [hlatched hready, hrti]; rfl
  · rw [hkey k rest hready hinput, hrti]; rfl
  · rw [hnokey rest hready hinput, hbr]; rfl
  · rw [hnoanswer hready hinput, hbr]; rfl

/-! ### Two steps (R46, R80) -/

/-- Settles O44: ST with offset 0 stores at the incremented pc, which the next fetch reads. -/
theorem storeIsSeenByTheNextFetch : Obligations.StoreIsSeenByTheNextFetch := by
  intro s sr hrun habort hpc hnext hst
  let t : State := (fetch s).2.setCell (s.pc + 1) (s.reg sr)
  have hcfg : t.cfg = s.cfg := fetch_cfg s
  have hrun' : t.runState = .running := (fetch_runState s).trans hrun
  have habort' : t.abort = false := (fetch_abort s).trans habort
  have hnext' : target t.cfg t.pc = .storage := hcfg ▸ hnext
  have hcell : t.cell t.pc = s.reg sr := (State.cell_setCell ..).trans (if_pos rfl)
  have hstep : step s = .next t := by
    have hea : eaPC 0 (fetch s).2 = s.pc + 1 := BitVec.add_zero _
    rw [step_storage hrun habort hpc, hst, exec, execSt, hea, memWrite_storage (fetch_cfg s ▸ hnext),
      fetch_reg]
  refine ⟨t, hstep, ?_, ?_⟩
  · rw [step_storage hrun' habort' hnext', hcell]
  · rw [fetch_word, memRead_storage hnext', hcell]

/-- Settles O18: JSR changes pc and R7 only, so the next step reads the RET from the unchanged
storage and goes to the link. -/
theorem jsrThenRetReturnsAfterTheCall : Obligations.JsrThenRetReturnsAfterTheCall := by
  intro s off hrun habort hpc hjsr htarget hret
  let t : State := (fetch s).2.link.setPc (s.pc + 1 + off)
  have hrun' : t.runState = .running := (fetch_runState s).trans hrun
  have habort' : t.abort = false := (fetch_abort s).trans habort
  have htarget' : target t.cfg t.pc = .storage := (fetch_cfg s).symm ▸ htarget
  have hret' : decode (t.cell t.pc) = .jmp .r7 := (fetch_cell s _).symm ▸ hret
  have hlink : (fetch t).2.reg .r7 = s.pc + 1 := fetch_reg t .r7
  have hcall : step s = .next t := by rw [step_storage hrun habort hpc, hjsr]; rfl
  refine ⟨t, (fetch t).2.setPc (s.pc + 1), hcall, rfl, ?_, rfl, hlink⟩
  rw [step_storage hrun' habort' htarget', hret', exec, execJmp, hlink]

end Sys2Proof.Machine
end

section
/-! The services that take a key (43_trap.md R91, R92, R95): what GetKey answers, GETC and IN when a key
is latched or comes, when they hold (R109, D13), and that a key lifts the hold. -/

namespace Sys2Proof.Machine

/-! ### GetKey (R91) -/

section
variable {s : State}

theorem getKey_of_latched (hready : s.kbReady = true) :
    getKey s = some (s.kbData, { s with kbReady := false }) := by
  rw [getKey, if_pos hready]

theorem getKey_of_keyComes {k : Byte} {rest : List (Option Byte)} (hready : s.kbReady = false)
    (hkey : KeyComes s.input k rest) :
    getKey s = some (zext k, { s with kbData := zext k, input := rest }) := by
  rw [getKey, if_neg (by simp [hready]), keyWait_eq_some.mpr hkey]

theorem getKey_eq_none_iff : getKey s = none ↔ s.kbReady = false ∧ NoKeyComes s.input := by
  rw [NoKeyComes, ← keyWait_eq_none]
  rcases getKey_cases s with ⟨hready, hkey⟩ | ⟨hready, _, _, hwait, hkey⟩ | ⟨hready, hwait, hkey⟩
  · simp [hkey, hready]
  · simp [hkey, hwait]
  · simp [hkey, hready, hwait]

end

/-! ### GETC and IN (R92, R95) -/

theorem trapGetc_of_getKey {s t : State} {k : Word} (h : getKey s = some (k, t)) :
    trapGetc s = .next (t.writeDest .r0 k) := by
  rw [trapGetc, h]

theorem trapIn_of_getKey {s t : State} {k : Word} (h : getKey (s.emit s.cfg.inPrompt) = some (k, t)) :
    trapIn s = .next ((t.emit [lowByte k]).writeDest .r0 k) := by
  rw [trapIn, h]

/-- The frame of a taken key leaves open the keyboard, the output, R0 and cond only. -/
theorem writeDest_keyFrame (s : State) (ready : Bool) (data : Word) (input : List (Option Byte))
    (output : List Byte) (k : Word) :
    KeyFrame s ({ s.withKeyboard ready data input with output := output }.writeDest .r0 k) := by
  refine ⟨fun q hq => ?_, rfl, fun _ => rfl, ⟨rfl, rfl, rfl, rfl, rfl, rfl⟩⟩
  rw [State.reg_writeDest, if_neg hq]; rfl

theorem State.toNat_reg_writeDest_zext (s : State) (dr : Reg) (k : Byte) :
    ((s.writeDest dr (zext k)).reg dr).toNat = k.toNat := by
  rw [State.reg_writeDest_same, zext, BitVec.toNat_setWidth_of_le (by decide)]

/-- Settles O31: GETC is GetKey and the write of its key to R0. -/
theorem getcReadsOneKeyIntoR0 : Obligations.GetcReadsOneKeyIntoR0 := by
  intro s hwf
  obtain ⟨hexec, -⟩ := exec_trap_selects_service hwf
  rw [hexec]
  refine ⟨fun hready => ?_, fun k rest hready hkey => ?_⟩
  · exact ⟨_, trapGetc_of_getKey (getKey_of_latched hready), State.reg_writeDest_same ..,
      State.writeDest_shows .., rfl, rfl, rfl, rfl, writeDest_keyFrame s _ _ _ s.output _⟩
  · exact ⟨_, trapGetc_of_getKey (getKey_of_keyComes hready hkey), State.toNat_reg_writeDest_zext ..,
      State.writeDest_shows .., hready, (State.reg_writeDest_same ..).symm, rfl, rfl,
      writeDest_keyFrame s _ _ _ s.output _⟩

/-- Settles O32: IN is the prompt, GetKey, the key's echo and the write of the key to R0. -/
theorem inPromptsReadsAndEchoes : Obligations.InPromptsReadsAndEchoes := by
  intro s hwf
  obtain ⟨-, -, -, hexec, -⟩ := exec_trap_selects_service hwf
  rw [hexec]
  refine ⟨fun hready => ?_, fun k rest hready hkey => ?_⟩
  · exact ⟨_, trapIn_of_getKey (getKey_of_latched hready), State.reg_writeDest_same ..,
      State.writeDest_shows .., rfl, rfl, rfl, rfl, writeDest_keyFrame s _ _ _ _ _⟩
  · exact ⟨_, trapIn_of_getKey (getKey_of_keyComes hready hkey), State.toNat_reg_writeDest_zext ..,
      State.writeDest_shows .., hready, (State.reg_writeDest_same ..).symm, rfl,
      congrArg (fun b => s.output ++ s.cfg.inPrompt ++ [b]) (lowByte_zext k),
      writeDest_keyFrame s _ _ _ _ _⟩

/-! ### The hold (R109) -/

theorem trapGetc_holds_iff (s : State) :
    trapGetc s = .fault (.keyWaitHold []) ↔ getKey s = none := by
  cases h : getKey s <;> simp [trapGetc, h]

theorem trapIn_holds_iff (s : State) :
    trapIn s = .fault (.keyWaitHold s.cfg.inPrompt) ↔ getKey (s.emit s.cfg.inPrompt) = none := by
  cases h : getKey (s.emit s.cfg.inPrompt) <;> simp [trapIn, h]

/-- Settles O33: the services hold when GetKey does not answer, and the prompt moves no key. -/
theorem keyServicesHoldExactlyWhenNoKeyComes : Obligations.KeyServicesHoldExactlyWhenNoKeyComes := by
  intro s hwf
  obtain ⟨hgetc, -, -, hin, -⟩ := exec_trap_selects_service hwf
  rw [hgetc, hin]
  exact ⟨(trapGetc_holds_iff s).trans getKey_eq_none_iff, (trapIn_holds_iff s).trans getKey_eq_none_iff⟩

theorem keyComes_of_noKeyComes {input : List (Option Byte)} (h : NoKeyComes input) (k : Byte) :
    KeyComes (input ++ [some k]) k [] :=
  ⟨input.length, by rw [← List.eq_replicate_of_mem h]⟩

/-- A service that holds completes once a key is behind the console's answers: it takes that key, and
what the hold had written comes first. -/
theorem held_service_completes {s : State} {vect : BitVec 8} {ws : List Byte} (hwf : s.cfg.wf = true)
    (hhold : exec (.trap vect) s = .fault (.keyWaitHold ws)) (k : Byte) :
    ∃ t, exec (.trap vect) { s with input := s.input ++ [some k] } = .next t ∧
      t.reg .r0 = zext k ∧ t.pc = s.pc ∧ t.input = [] ∧ ∃ echo, t.output = s.output ++ ws ++ echo := by
  have hfault : ServiceFault s.cfg vect (.keyWaitHold ws) := by
    rcases exec_completes_or_faults (.trap vect) s with ⟨t, h⟩ | ⟨_, f, hi, hf, h⟩ <;>
      rw [hhold] at h <;> cases h
    cases hi
    exact hf
  obtain ⟨hgetc, hin⟩ := keyServicesHoldExactlyWhenNoKeyComes s hwf
  have hzext {w : Word} (hw : w.toNat = k.toNat) : w = zext k :=
    BitVec.eq_of_toNat_eq (hw.trans (BitVec.toNat_setWidth_of_le (by decide)).symm)
  rcases hfault with ⟨rfl, hws⟩ | ⟨rfl, hws⟩ | ⟨-, hws⟩ <;> cases hws
  · obtain ⟨hready, hno⟩ := hgetc.mp hhold
    obtain ⟨t, hexec, hr0, -, -, -, hinput, houtput, -, hpc, -⟩ :=
      (getcReadsOneKeyIntoR0 { s with input := s.input ++ [some k] } hwf).2 k [] hready
        (keyComes_of_noKeyComes hno k)
    exact ⟨t, hexec, hzext hr0, hpc, hinput, [], by simpa using houtput⟩
  · obtain ⟨hready, hno⟩ := hin.mp hhold
    obtain ⟨t, hexec, hr0, -, -, -, hinput, houtput, -, hpc, -⟩ :=
      (inPromptsReadsAndEchoes { s with input := s.input ++ [some k] } hwf).2 k [] hready
        (keyComes_of_noKeyComes hno k)
    exact ⟨t, hexec, hzext hr0, hpc, hinput, [k], houtput⟩

/-- A word with a zero high byte is a BR. -/
theorem opcodeOf_of_highByte_eq_zero {w : Word} (h : highByte w = 0) : opcodeOf w = .br := by
  have hopcode : w.extractLsb' 12 4 = (highByte w).extractLsb' 4 4 := by
    apply BitVec.eq_of_getLsbD_eq
    intro j hj
    have hj8 : 4 + j < 8 := by omega
    simp [highByte, hj, hj8, ← Nat.add_assoc]
  rw [opcodeOf, hopcode, h]; decide

/-- No TRAP is fetched from a keyboard cell: the status word is an RTI or a BR, and a key's code is
a BR (D11). -/
theorem State.Inv.pc_storage_of_fetched_trap {s : State} {vect : BitVec 8} (h : s.Inv)
    (hdecode : decode (Machine.fetch s).1 = .trap vect) : target s.cfg s.pc = .storage := by
  have hopcode : opcodeOf (Machine.memRead s.pc s).1 = .trap := by
    rw [← fetch_word, ← opcode_decode, hdecode]; rfl
  cases ht : target s.cfg s.pc with
  | storage => rfl
  | kbsr =>
    rw [memRead_kbsr ht] at hopcode
    have hstatus : ∀ ready, opcodeOf (statusWord ready) ≠ .trap := by decide
    exact absurd hopcode (hstatus _)
  | kbdr =>
    rw [memRead_kbdr ht, opcodeOf_of_highByte_eq_zero h.highByte_pollKey] at hopcode
    cases hopcode

/-- A fetch from storage neither takes an answer nor looks at those to come. -/
theorem fetch_with_input_of_storage {s : State} (hpc : target s.cfg s.pc = .storage)
    (input : List (Option Byte)) :
    fetch { s with input := input } = ((fetch s).1, { (fetch s).2 with input := input }) := by
  rw [fetch_storage hpc]
  exact fetch_storage hpc

/-- Settles O34: the held instruction was fetched from storage, so with the key behind the answers the
same instruction is fetched, and it completes. -/
theorem holdIsLiftedByAKey : Obligations.HoldIsLiftedByAKey := by
  intro s ws k hinv hhold
  obtain ⟨hstops, -⟩ := stepStopsOnlyAsHoldHangOrAbort s
  obtain ⟨hrun, habort, vect, hdecode, -⟩ := hstops _ hhold
  rw [step_running hrun habort, hdecode] at hhold
  obtain ⟨t, hexec, hrest⟩ := held_service_completes hinv.fetch.cfgWf hhold k
  have hpc : target s.cfg s.pc = .storage := hinv.pc_storage_of_fetched_trap hdecode
  have hinput : (fetch s).2.input = s.input := by rw [fetch_storage hpc]
  rw [hinput] at hexec
  rw [fetch_pc, fetch_output] at hrest
  refine ⟨t, ?_, hrest⟩
  rw [step_running (s := { s with input := s.input ++ [some k] }) hrun habort,
    fetch_with_input_of_storage hpc, hdecode, hexec]

end Sys2Proof.Machine
end

section
/-! The string services (43_trap.md R94, R96, D14, D15): PUTS and PUTSP are one scan with two ways to
end and to print a word, which stops at the first terminator and hangs (R109) when there is none. -/

namespace Sys2Proof.Machine

/-! ### The scan of a string service -/

/-- The bytes printed from address a on, each word by `print`, up to the first word that ends the
string; none when the first n words hold no end. -/
def stringScan (ends : Word → Prop) [DecidablePred ends] (print : Word → List Byte) (s : State) :
    Nat → Word → Option (List Byte)
  | 0, _ => none
  | n + 1, a =>
    if ends (peek a s) then some []
    else (stringScan ends print s n (a + 1#16)).map fun bs => print (peek a s) ++ bs

theorem putsScan_eq_stringScan (s : State) (n : Nat) (a : Word) :
    putsScan s n a = stringScan (· = 0#16) (fun w => [lowByte w]) s n a := by
  induction n generalizing a with
  | zero => rfl
  | succ n ih => rw [putsScan, stringScan, ih]; rfl

theorem putspScan_eq_stringScan (s : State) (n : Nat) (a : Word) :
    putspScan s n a = stringScan (lowByte · = 0#8) putspWord s n a := by
  induction n generalizing a with
  | zero => rfl
  | succ n ih => rw [putspScan, stringScan, ih]

/-- From any address on, every address comes up among the next 2^16, for the address wraps. -/
theorem exists_offset (a b : Word) : ∃ k < 65536, b = a + BitVec.ofNat 16 k :=
  ⟨(b - a).toNat, (b - a).isLt, by rw [BitVec.ofNat_toNat, BitVec.setWidth_eq]; bv_omega⟩

section
variable {ends : Word → Prop} [DecidablePred ends] {print : Word → List Byte} {s : State}

theorem peek_add_zero (a : Word) (s : State) : peek (a + BitVec.ofNat 16 0) s = peek a s :=
  congrArg (peek · s) (BitVec.add_zero a)

theorem peek_add_succ (a : Word) (k : Nat) (s : State) :
    peek (a + BitVec.ofNat 16 (k + 1)) s = peek (a + 1#16 + BitVec.ofNat 16 k) s := by
  rw [Nat.add_comm, BitVec.ofNat_add, BitVec.add_assoc]

/-- The scan finds nothing to print exactly when none of its words ends the string. -/
theorem stringScan_eq_none_iff {n : Nat} {a : Word} : stringScan ends print s n a = none ↔
    ∀ k < n, ¬ ends (peek (a + BitVec.ofNat 16 k) s) := by
  induction n generalizing a with
  | zero => simp [stringScan]
  | succ n ih =>
    simp only [Nat.forall_lt_succ_left, peek_add_zero, peek_add_succ, ← ih, stringScan]
    by_cases hend : ends (peek a s) <;> simp [hend]

/-- The scan prints the words before the first end of the string. -/
theorem stringScan_of_first_end {n k : Nat} {a : Word} (hk : k < n)
    (hbefore : ∀ j < k, ¬ ends (peek (a + BitVec.ofNat 16 j) s))
    (hend : ends (peek (a + BitVec.ofNat 16 k) s)) :
    stringScan ends print s n a =
      some ((List.range k).flatMap fun j => print (peek (a + BitVec.ofNat 16 j) s)) := by
  induction n generalizing k a with
  | zero => cases hk
  | succ n ih =>
    cases k with
    | zero =>
      rw [peek_add_zero] at hend
      rw [stringScan, if_pos hend]; rfl
    | succ k =>
      simp only [Nat.forall_lt_succ_left, peek_add_zero, peek_add_succ] at hbefore hend
      obtain ⟨hfirst, hbefore⟩ := hbefore
      rw [stringScan, if_neg hfirst, ih (Nat.lt_of_succ_lt_succ hk) hbefore hend,
        List.range_succ_eq_map]
      simp only [List.flatMap_cons, List.flatMap_map, peek_add_zero, peek_add_succ,
        Nat.succ_eq_add_one, Option.map_some]

/-! ### All of memory -/

/-- A scan of all addresses finds nothing to print exactly when no address ends a string. -/
theorem stringScan_scanFuel_eq_none_iff {a : Word} :
    stringScan ends print s scanFuel a = none ↔ ∀ b, ¬ ends (peek b s) := by
  rw [stringScan_eq_none_iff]
  refine ⟨fun h b => ?_, fun h k _ => h _⟩
  obtain ⟨k, hk, rfl⟩ := exists_offset a b
  exact h k hk

/-- The first end of a string lies within the scan: the addresses of 2^16 words are all there are. -/
theorem stringScan_scanFuel_of_first_end {k : Nat} {a : Word}
    (hbefore : ∀ j < k, ¬ ends (peek (a + BitVec.ofNat 16 j) s))
    (hend : ends (peek (a + BitVec.ofNat 16 k) s)) :
    stringScan ends print s scanFuel a =
      some ((List.range k).flatMap fun j => print (peek (a + BitVec.ofNat 16 j) s)) := by
  refine stringScan_of_first_end (Nat.lt_of_not_le fun hle => ?_) hbefore hend
  obtain ⟨j, hj, heq⟩ := exists_offset a (a + BitVec.ofNat 16 k)
  exact hbefore j (Nat.lt_of_lt_of_le hj hle) (heq ▸ hend)

end

/-! ### PUTS and PUTSP -/

theorem putString_hangs_iff (s : State) (scanned : Option (List Byte)) :
    s.putString scanned = .fault .stringHang ↔ scanned = none := by
  cases scanned <;> simp [State.putString]

theorem exec_puts {s : State} (hwf : s.cfg.wf = true) : exec (.trap s.cfg.trapPuts) s =
    s.putString (stringScan (· = 0#16) (fun w => [lowByte w]) s scanFuel (s.reg .r0)) := by
  obtain ⟨-, -, hexec, -⟩ := exec_trap_selects_service hwf
  rw [hexec, trapPuts, putsScan_eq_stringScan]

theorem exec_putsp {s : State} (hwf : s.cfg.wf = true) : exec (.trap s.cfg.trapPutsp) s =
    s.putString (stringScan (lowByte · = 0#8) putspWord s scanFuel (s.reg .r0)) := by
  obtain ⟨-, -, -, -, hexec, -⟩ := exec_trap_selects_service hwf
  rw [hexec, trapPutsp, putspScan_eq_stringScan]

/-- Settles O36: the scan prints the low byte of each word before the first 0x0000. -/
theorem putsWritesUpToTheFirstZeroWord : Obligations.PutsWritesUpToTheFirstZeroWord := by
  intro s n hwf hbefore hend
  rw [exec_puts hwf, stringScan_scanFuel_of_first_end hbefore hend, ← List.map_eq_flatMap]
  exact ⟨_, rfl, rfl, s.emit_printFrame _⟩

/-- Settles O37: the scan prints one or two bytes of each word before the first zero low byte. -/
theorem putspWritesLowThenHighBytes : Obligations.PutspWritesLowThenHighBytes := by
  intro s n hwf hbefore hend
  rw [exec_putsp hwf, stringScan_scanFuel_of_first_end hbefore hend]
  exact ⟨_, rfl, rfl, s.emit_printFrame _⟩

/-- Settles O38: a service hangs when the scan of all addresses finds no end of the string. -/
theorem stringServicesHangExactlyWithoutTerminator :
    Obligations.StringServicesHangExactlyWithoutTerminator := by
  intro s hwf
  rw [exec_puts hwf, exec_putsp hwf]
  exact ⟨(putString_hangs_iff s _).trans stringScan_scanFuel_eq_none_iff,
    (putString_hangs_iff s _).trans stringScan_scanFuel_eq_none_iff⟩

end Sys2Proof.Machine
end

section
/-! An image's words at consecutive addresses, and the load errors (20_memory.md R38, D27, D28). -/

namespace Sys2Proof.Machine

theorem storeWords_wf {m : Memory} (hm : m.wf = true) {a : Nat} {ws : List Word}
    (hfits : a + ws.length ≤ 65536) : (storeWords m a ws).wf = true := by
  induction ws generalizing m a with
  | nil => exact hm
  | cons w ws ih =>
    rw [List.length_cons] at hfits
    exact ih (Memory.write_wf hm (by omega) w) (by omega)

/-- The bytes of a file pair up into words only if their number is even. -/
theorem fileWords_of_odd_length (file : List Byte) (hodd : file.length % 2 = 1) :
    fileWords file = none := by
  induction file using fileWords.induct with
  | case1 => cases hodd
  | case2 => rfl
  | case3 hi lo rest ih =>
    rw [fileWords, ih (by simpa [Nat.add_assoc] using hodd), Option.map_none]

/-- Settles O59: a file with an origin and even length is its words, which are stored from the origin
on if they fit. -/
theorem imageWordsGoToConsecutiveAddresses : Obligations.ImageWordsGoToConsecutiveAddresses := by
  refine ⟨fun m o ws hfits => ?_, fun m o ws hlong => ?_, fun m file hshort => if_pos hshort,
    fun m file hlong hodd => ?_⟩
  · exact ⟨_, (loadImage_imageFile m o ws).trans (if_pos hfits),
      fun _ hk => read_storeWords_inside m o.toNat hk, fun _ ha => read_storeWords_outside m ws ha,
      fun hm => storeWords_wf hm hfits⟩
  · exact (loadImage_imageFile m o ws).trans (if_neg hlong.not_ge)
  · rw [loadImage, if_neg hlong.not_gt, fileWords_of_odd_length file hodd]

end Sys2Proof.Machine
end
